-- ==== Sys2Proof/Word.lean ====
section
/-! DEFINITION. The words of the block: 64-bit operands and results, the 32-bit command word and the 4-bit context
number (spec 30_encoding.md R60, R61, R62). All values are unsigned (00_scope.md R8). -/

namespace Sys2Proof

/-- A 64-bit operand (`ARG0`, `ARG1`) or result word (30_encoding.md R60, R62). -/
abbrev Word := BitVec 64

/-- The 32-bit command word `CMD` (30_encoding.md R61). -/
abbrev CmdWord := BitVec 32

/-- A context number as the command word carries it, 4 bits (30_encoding.md R61). -/
abbrev CtxNum := BitVec 4

end Sys2Proof
end

