-- ==== Sys2Proof/Syntax.lean ====
section
/-! DEFINITION. What the host sends: a request (30_encoding.md R60), and the twelve commands as syntax, one constructor per
row of spec/opcode_table.json (30_encoding.md R64). -/

namespace Sys2Proof

/-- A request on the command port: the command word and two operands (30_encoding.md R60). -/
structure Request where
  cmd : CmdWord
  arg0 : Word
  arg1 : Word
  deriving DecidableEq, Repr

/-- A command with the operands it came with. Every constructor carries `ARG0` and `ARG1`, the ignored ones too, because
the fault record keeps both as they were presented (10_state.md R28, 60_exceptions.md R143; log 6). -/
inductive Instr where
  /-- CREATE: `c` is CTX, `arg0` is itemsCount, `arg1` is maxValue (41_compact_array.md R101). -/
  | create (c : CtxNum) (arg0 arg1 : Word)
  /-- SETITEM: `arg0` is index, `arg1` is value (41_compact_array.md R103). -/
  | setitem (c : CtxNum) (arg0 arg1 : Word)
  /-- GETITEM: `arg0` is index (41_compact_array.md R105). -/
  | getitem (c : CtxNum) (arg0 arg1 : Word)
  /-- GETITEMS: both operands ignored (41_compact_array.md R107). -/
  | getitems (c : CtxNum) (arg0 arg1 : Word)
  /-- COPY: `d` is CTX, the destination; `c` is SRC, the source (41_compact_array.md R109). -/
  | copy (d c : CtxNum) (arg0 arg1 : Word)
  /-- INFO: both operands ignored (41_compact_array.md R111). -/
  | info (c : CtxNum) (arg0 arg1 : Word)
  /-- BSET: `arg0` is bitIndex (40_bitvector.md R80). -/
  | bset (c : CtxNum) (arg0 arg1 : Word)
  /-- BCLR: `arg0` is bitIndex (40_bitvector.md R82). -/
  | bclr (c : CtxNum) (arg0 arg1 : Word)
  /-- BTEST: `arg0` is bitIndex (40_bitvector.md R84). -/
  | btest (c : CtxNum) (arg0 arg1 : Word)
  /-- RDBLK: `arg0` is blockIndex (40_bitvector.md R86). -/
  | rdblk (c : CtxNum) (arg0 arg1 : Word)
  /-- WRBLK: `arg0` is blockIndex, `arg1` is data (40_bitvector.md R88). -/
  | wrblk (c : CtxNum) (arg0 arg1 : Word)
  /-- FINFO: no context, both operands ignored (42_status.md R130). -/
  | finfo (arg0 arg1 : Word)
  deriving DecidableEq, Repr

end Sys2Proof
end

