-- ==== Sys2Proof/Decode.lean ====
section
/-! DEFINITION. Command decoding and encoding (30_encoding.md R61 to R67). Decoding is total: a word that matches no row of
R65 is rejected by name. The encoder and the table of R65's match and mask pairs follow it. Checks (2) and (3) of R66
depend on `N_CTX` and stand in WellFormed.lean. -/

namespace Sys2Proof

/-- `OPC`, `CMD[7:0]` (30_encoding.md R61, R63). -/
def opcField (w : CmdWord) : BitVec 8 := w.extractLsb' 0 8

/-- `CTX`, `CMD[11:8]` (30_encoding.md R61, R63). -/
def ctxField (w : CmdWord) : CtxNum := w.extractLsb' 8 4

/-- `SRC`, `CMD[15:12]` (30_encoding.md R61, R63). -/
def srcField (w : CmdWord) : CtxNum := w.extractLsb' 12 4

/-- `RSVD`, `CMD[31:16]` (30_encoding.md R61, R63). -/
def rsvdField (w : CmdWord) : BitVec 16 := w.extractLsb' 16 16

/-- Why a word matches no row of 30_encoding.md R65 (the reserved encodings of R67). All of them raise `F_ILLEGAL`. -/
inductive Reject where
  /-- `OPC` is 0x00, 0x07, 0x0B, 0x0E or 0x10 to 0xFF. -/
  | reservedOpcode
  /-- `RSVD` is not zero. -/
  | reservedBitsSet
  /-- `SRC` is not zero and the command is not COPY. -/
  | unusedSrcSet
  /-- `CTX` is not zero and the command is FINFO. -/
  | unusedCtxSet
  deriving DecidableEq, Repr

/-- A command that uses CTX only: SRC must be zero (30_encoding.md R65). -/
def decodeCtxOnly (r : Request) (k : CtxNum → Word → Word → Instr) : Except Reject Instr :=
  if srcField r.cmd = 0 then .ok (k (ctxField r.cmd) r.arg0 r.arg1) else .error .unusedSrcSet

/-- FINFO uses neither CTX nor SRC: both must be zero (30_encoding.md R65). -/
def decodeFinfo (r : Request) : Except Reject Instr :=
  if srcField r.cmd ≠ 0 then .error .unusedSrcSet
  else if ctxField r.cmd ≠ 0 then .error .unusedCtxSet
  else .ok (.finfo r.arg0 r.arg1)

/-- The decoder: the opcode map of 30_encoding.md R64 with the fields that must be zero of R65. -/
def decode (r : Request) : Except Reject Instr :=
  if rsvdField r.cmd ≠ 0 then .error .reservedBitsSet
  else
    match opcField r.cmd with
    | 0x01#8 => decodeCtxOnly r .create
    | 0x02#8 => decodeCtxOnly r .setitem
    | 0x03#8 => decodeCtxOnly r .getitem
    | 0x04#8 => decodeCtxOnly r .getitems
    | 0x05#8 => .ok (.copy (ctxField r.cmd) (srcField r.cmd) r.arg0 r.arg1)
    | 0x06#8 => decodeCtxOnly r .info
    | 0x08#8 => decodeCtxOnly r .bset
    | 0x09#8 => decodeCtxOnly r .bclr
    | 0x0A#8 => decodeCtxOnly r .btest
    | 0x0C#8 => decodeCtxOnly r .rdblk
    | 0x0D#8 => decodeCtxOnly r .wrblk
    | 0x0F#8 => decodeFinfo r
    | _ => .error .reservedOpcode

/-- The request whose bits are `w`, numbered on from the command word: `CMD` is bits 31..0, `ARG0` bits 95..32, `ARG1`
bits 159..96; the bits from `nbits` up are zero. -/
def requestOfBits (nbits w : Nat) : Request :=
  let v := w % 2 ^ nbits
  { cmd := BitVec.ofNat 32 v, arg0 := BitVec.ofNat 64 (v / 2 ^ 32), arg1 := BitVec.ofNat 64 (v / 2 ^ 96) }

/-- What the decoder reads from an instruction whose bits are `w` (`none` where it refuses). The word is not stored
anywhere by bytes: the block has no byte order (20_memory.md R47). -/
def decodeTableWord (nbits w : Nat) : Option Instr := (decode (requestOfBits nbits w)).toOption

/-- The command word with these fields and `RSVD` zero (30_encoding.md R61). -/
def cmdWord (opc : BitVec 8) (ctx src : CtxNum) : CmdWord := 0#16 ++ src ++ ctx ++ opc

/-- The encoder: the request that presents a command (30_encoding.md R61, R64, R65). -/
def encode (i : Instr) : Request :=
  match i with
  | .create c a b => { cmd := cmdWord 0x01 c 0, arg0 := a, arg1 := b }
  | .setitem c a b => { cmd := cmdWord 0x02 c 0, arg0 := a, arg1 := b }
  | .getitem c a b => { cmd := cmdWord 0x03 c 0, arg0 := a, arg1 := b }
  | .getitems c a b => { cmd := cmdWord 0x04 c 0, arg0 := a, arg1 := b }
  | .copy d c a b => { cmd := cmdWord 0x05 d c, arg0 := a, arg1 := b }
  | .info c a b => { cmd := cmdWord 0x06 c 0, arg0 := a, arg1 := b }
  | .bset c a b => { cmd := cmdWord 0x08 c 0, arg0 := a, arg1 := b }
  | .bclr c a b => { cmd := cmdWord 0x09 c 0, arg0 := a, arg1 := b }
  | .btest c a b => { cmd := cmdWord 0x0A c 0, arg0 := a, arg1 := b }
  | .rdblk c a b => { cmd := cmdWord 0x0C c 0, arg0 := a, arg1 := b }
  | .wrblk c a b => { cmd := cmdWord 0x0D c 0, arg0 := a, arg1 := b }
  | .finfo a b => { cmd := cmdWord 0x0F 0 0, arg0 := a, arg1 := b }

/-- One row of 30_encoding.md R65: a word matches it when `word AND mask = bits`. -/
structure EncodingRow where
  mask : CmdWord
  bits : CmdWord
  deriving DecidableEq, Repr

/-- The word matches the row (30_encoding.md R65). -/
def EncodingRow.accepts (row : EncodingRow) (w : CmdWord) : Bool := w &&& row.mask == row.bits

/-- FINFO's word, the one row of R65 with no field (30_encoding.md R65; 42_status.md R130). -/
def finfoWord : CmdWord := 0x0000000F

/-- COPY's row of 30_encoding.md R65, the one row whose SRC is a field. -/
def copyRow : EncodingRow := { mask := 0xFFFF00FF, bits := 0x00000005 }

/-- The match and mask pairs of 30_encoding.md R65, in the order of its table. -/
def encodingTable : List EncodingRow :=
  [ { mask := 0xFFFFF0FF, bits := 0x00000001 }, { mask := 0xFFFFF0FF, bits := 0x00000002 },
    { mask := 0xFFFFF0FF, bits := 0x00000003 }, { mask := 0xFFFFF0FF, bits := 0x00000004 },
    copyRow, { mask := 0xFFFFF0FF, bits := 0x00000006 },
    { mask := 0xFFFFF0FF, bits := 0x00000008 }, { mask := 0xFFFFF0FF, bits := 0x00000009 },
    { mask := 0xFFFFF0FF, bits := 0x0000000A }, { mask := 0xFFFFF0FF, bits := 0x0000000C },
    { mask := 0xFFFFF0FF, bits := 0x0000000D }, { mask := 0xFFFFFFFF, bits := finfoWord } ]

end Sys2Proof
end

