-- ==== Sys2Proof/Config.lean ====
section
/-! DEFINITION. The implementation parameters of 00_scope.md R6. They are plain data that a state carries (log 3), so that
a claim is about every legal choice of them and the machine after reset has the spec's reference values. -/

namespace Sys2Proof

/-- The parameters of 00_scope.md R6 whose value the spec leaves to the implementation. -/
structure Config where
  /-- `W`, the native staging width: every item width is strictly below it. -/
  W : Nat
  /-- `MEM_BITS`, the bits of storage of one context. -/
  memBits : Nat
  /-- `N_CTX`, the number of contexts. -/
  nCtx : Nat
  /-- `ZERO_WIDTH_REJECT`, whether CREATE rejects `maxValue = 0`. -/
  zeroWidthReject : Bool
  deriving DecidableEq, Repr

/-- `BLOCK_BITS`: 64 is its one legal value (00_scope.md R6; 92_eei_decisions.md D8). -/
abbrev Config.blockBits : Nat := 64

/-- The legal values of the parameters (00_scope.md R6). -/
abbrev Config.Legal (cfg : Config) : Prop :=
  2 ≤ cfg.W ∧ cfg.W ≤ 64 ∧ cfg.memBits % Config.blockBits = 0 ∧ Config.blockBits ≤ cfg.memBits ∧
    1 ≤ cfg.nCtx ∧ cfg.nCtx ≤ 16

/-- The reference values of 00_scope.md R6, those of every example of 95_test_vectors.md. -/
def Config.reference : Config := { W := 64, memBits := 65536, nCtx := 2, zeroWidthReject := false }

end Sys2Proof
end

