-- ==== Sys2Proof/Machine/State.lean ====
section
/-! DEFINITION. The state of the block (10_state.md R20 to R35) as plain data, the host's side of its port, and reset. -/

namespace Sys2Proof.Machine

/-- Why the machine would stop with a fault. NO constructor: 60_exceptions.md R140 to R145 give every contract violation
an effect (the record is written and a status is answered), so no meaning stops (log 12). -/
inductive Fault
  deriving DecidableEq, Repr

/-- Why an instruction would have no meaning. -/
inductive Refusal where
  /-- Raised by an arm of `exec` whose instruction is not modelled yet, with its mnemonic. No arm raises it in this model.
  Safe: the machine stops where the hardware goes on. -/
  | notModelled (mnemonic : String)
  deriving DecidableEq, Repr

/-- `ctx[c].tag` (10_state.md R21). -/
inductive Tag where
  /-- The absent state, encoded 0. -/
  | empty
  /-- A configured Compact Array, encoded 1. -/
  | configured
  deriving DecidableEq, Repr

/-- The storage of one context (10_state.md R26): pairs of a bit address and the bit there. The spec's smallest
addressable unit is the bit and it has no bytes (20_memory.md R40, R47; log 5). -/
structure Memory where
  cells : List (Nat × Bool)
  deriving DecidableEq, Repr

/-- What a bit address that no cell lists reads as. CREATE leaves every bit clear (41_compact_array.md R101); for the
storage at reset, which the spec leaves unspecified and unobservable (10_state.md R35), 0 is a DESIGN CHOICE (log 4). -/
def Memory.unlisted : Bool := false

/-- The canonical form: addresses strictly rising, and no cell that holds what an unlisted address reads as. -/
abbrev Memory.wf (m : Memory) : Prop :=
  m.cells.Pairwise (fun x y => x.1 < y.1) ∧ ∀ e ∈ m.cells, e.2 ≠ Memory.unlisted

/-- One context: a Compact Array with its Bit Vector (10_state.md R20). -/
structure Context where
  tag : Tag
  /-- `ISZ`, the item width in bits (10_state.md R22; 00_scope.md R7; log 10). -/
  isz : BitVec 6
  /-- `CNT`, the item count (10_state.md R23). -/
  cnt : Word
  /-- The storage bits (10_state.md R26). -/
  mem : Memory
  deriving DecidableEq, Repr

/-- A context after reset (10_state.md R24, R35), with no storage bit listed (log 4). -/
def Context.empty : Context := { tag := .empty, isz := 0, cnt := 0, mem := { cells := [] } }

/-- The global fault record (10_state.md R28). -/
structure FaultRecord where
  /-- `FAULT`, sticky. -/
  fault : Bool
  /-- `FCODE`, the code of the first fault. -/
  fcode : BitVec 8
  /-- `FCMD`, the command word of the first faulting command. -/
  fcmd : CmdWord
  /-- `FARG0`, its `ARG0`. -/
  farg0 : Word
  /-- `FARG1`, its `ARG1`. -/
  farg1 : Word
  deriving DecidableEq, Repr

/-- The fault record after reset (10_state.md R35). -/
def FaultRecord.clear : FaultRecord := { fault := false, fcode := 0, fcmd := 0, farg0 := 0, farg1 := 0 }

/-- The fault codes of 60_exceptions.md R140 (the rows of class "fault"). -/
inductive FaultCode where
  | illegal
  | index
  | value
  | bitIndex
  | blockIndex
  deriving DecidableEq, Repr

/-- The statuses of 60_exceptions.md R140. -/
inductive Status where
  | ok
  | cfgWidth
  | cfgCapacity
  | cfgZeroWidth
  /-- The status of a command that raised this fault. -/
  | fault (f : FaultCode)
  /-- The refusal of a command that arrives while `FAULT = 1`. -/
  | faulted
  deriving DecidableEq, Repr

/-- A response: an 8-bit status and a list of 64-bit words (30_encoding.md R60). -/
structure Response where
  status : BitVec 8
  data : List Word
  deriving DecidableEq, Repr

/-- One thing the host does to the block. -/
inductive PortEvent where
  /-- It presents a request and waits for the response (30_encoding.md R60; 70_reset_and_hazards.md R172). -/
  | request (r : Request)
  /-- It asserts the reset input between commands (70_reset_and_hazards.md R170). -/
  | reset
  /-- It asserts the reset input while the command of this request is in progress (70_reset_and_hazards.md R175). -/
  | resetDuring (r : Request)
  deriving DecidableEq, Repr

/-- The machine. `cfg`, `inbox` and `outbox` are the model's own fields: the parameters, which nothing writes (log 3);
what the host will do, in order (log 1); and the responses delivered so far, oldest first, which no command reads
(10_state.md R33; log 2). -/
structure State where
  cfg : Config
  /-- The `N_CTX` contexts, context 0 first (10_state.md R20). -/
  ctxs : List Context
  /-- The fault record (10_state.md R28). -/
  record : FaultRecord
  inbox : List PortEvent
  outbox : List Response
  deriving DecidableEq, Repr

/-- The block right after reset for a choice of the parameters (10_state.md R35), nothing presented, nothing answered. -/
def State.resetWith (cfg : Config) : State :=
  { cfg := cfg, ctxs := List.replicate cfg.nCtx Context.empty, record := FaultRecord.clear, inbox := [], outbox := [] }

/-- The machine right after reset, at the reference parameters (10_state.md R35; 00_scope.md R6). -/
def State.reset : State := State.resetWith Config.reference

end Sys2Proof.Machine
end

