-- ==== Sys2Proof/Machine/Flags.lean ====
section
/-! DEFINITION. Status and fault codes (60_exceptions.md R140), the tag's encoding (10_state.md R21) and the one flag of
the block, `FAULT`, with its output `fault_o` (10_state.md R28, R29, R32). -/

namespace Sys2Proof.Machine

/-- The code of a fault (60_exceptions.md R140). -/
def FaultCode.code (f : FaultCode) : BitVec 8 :=
  match f with
  | .illegal => 0x41
  | .index => 0x42
  | .value => 0x43
  | .bitIndex => 0x44
  | .blockIndex => 0x45

/-- The 8-bit status code (60_exceptions.md R140). -/
def Status.code (st : Status) : BitVec 8 :=
  match st with
  | .ok => 0x00
  | .cfgWidth => 0x01
  | .cfgCapacity => 0x02
  | .cfgZeroWidth => 0x03
  | .fault f => f.code
  | .faulted => 0x80

/-- The tag's one-bit encoding (10_state.md R21). -/
def Tag.code (t : Tag) : BitVec 1 :=
  match t with
  | .empty => 0
  | .configured => 1

/-- A bit as a 64-bit word, 1 if set and 0 if clear (40_bitvector.md R84). -/
def wordOfBit (b : Bool) : Word := if b then 1 else 0

/-- The output level `fault_o`, equal to `FAULT` at all times (10_state.md R29; 60_exceptions.md R150). -/
def State.faultOut (s : State) : Bool := s.record.fault

/-- The record a fault writes: `FAULT` set, the code and the request as presented (60_exceptions.md R143; log 6). -/
def faultRecordOf (f : FaultCode) (r : Request) : FaultRecord :=
  { fault := true, fcode := f.code, fcmd := r.cmd, farg0 := r.arg0, farg1 := r.arg1 }

end Sys2Proof.Machine
end

