-- ==== Sys2Proof/Machine/Operands.lean ====
section
/-! DEFINITION. Derived quantities of operands and contexts: the width derivation (00_scope.md R10, R11), capacity and
block count (10_state.md R25), computed item addressing (20_memory.md R41) and the block mask (40_bitvector.md R87). All
of them are exact, on naturals (00_scope.md R7, R8). -/

namespace Sys2Proof.Machine

/-- `bitsNeeded(v)`, the number of binary digits of `v` (00_scope.md R10). -/
def bitsNeeded (v : Nat) : Nat := if v = 0 then 0 else Nat.log2 v + 1

/-- `maxItem(s)`, the largest value an item of width `s` holds (00_scope.md R11). -/
def maxItem (s : Nat) : Nat := 2 ^ s - 1

/-- `cap(c) = cnt * isz`, exact (10_state.md R25). -/
def Context.cap (x : Context) : Nat := x.cnt.toNat * x.isz.toNat

/-- `nblk(c)`, the number of blocks that hold bits below the capacity (10_state.md R25). -/
def Context.nblk (x : Context) : Nat := (x.cap + Config.blockBits - 1) / Config.blockBits

/-- `off(c, i)`, the bit address where the slot of item `i` starts, exact (20_memory.md R41). -/
def Context.off (x : Context) (i : Nat) : Nat := i * x.isz.toNat

/-- `valid(c, k)`: bit `p` is set exactly when `64k + p` is below the capacity, so the mask is as many low ones as the
block has addressable bits (40_bitvector.md R87). -/
def validMask (cap k : Nat) : Word := BitVec.ofNat 64 (2 ^ min Config.blockBits (cap - Config.blockBits * k) - 1)

end Sys2Proof.Machine
end

