-- ==== Sys2Proof/WellFormed.lean ====
section
/-! DEFINITION. The value checks of 30_encoding.md R66 that the masks of R65 cannot express: checks (2) and (3), which
depend on `N_CTX`. Check (1), that the word matches a row of R65, is the decoder's (Decode.lean). -/

namespace Sys2Proof

/-- The context number names one of the `N_CTX` contexts (30_encoding.md R66). -/
def Config.hasCtx (cfg : Config) (c : CtxNum) : Bool := decide (c.toNat < cfg.nCtx)

/-- Checks (2) and (3) of 30_encoding.md R66: a command that uses CTX names a context below `N_CTX`, and COPY's SRC does
too. FINFO uses no context. -/
def Instr.wellFormed (cfg : Config) (i : Instr) : Bool :=
  match i with
  | .create c _ _ => cfg.hasCtx c
  | .setitem c _ _ => cfg.hasCtx c
  | .getitem c _ _ => cfg.hasCtx c
  | .getitems c _ _ => cfg.hasCtx c
  | .copy d c _ _ => cfg.hasCtx d && cfg.hasCtx c
  | .info c _ _ => cfg.hasCtx c
  | .bset c _ _ => cfg.hasCtx c
  | .bclr c _ _ => cfg.hasCtx c
  | .btest c _ _ => cfg.hasCtx c
  | .rdblk c _ _ => cfg.hasCtx c
  | .wrblk c _ _ => cfg.hasCtx c
  | .finfo _ _ => true

end Sys2Proof
end

