-- ==== Sys2Proof/Machine/Ops.lean ====
section
/-! DEFINITION. The named operations: storage bits, fields and blocks (20_memory.md R44, R46), contexts, the response
port (30_encoding.md R60), fault entry, refusal and the common checks (60_exceptions.md R143 to R145), and the reset input
(70_reset_and_hazards.md R170). -/

namespace Sys2Proof.Machine

/-- The three outcomes, at this machine's types. -/
abbrev Result := Host.Outcome State Fault Refusal

/-! ### Storage bits -/

/-- The bit that a list of cells gives at an address. -/
def lookupCell (cells : List (Nat × Bool)) (a : Nat) : Bool :=
  match cells with
  | [] => Memory.unlisted
  | e :: rest => if e.1 = a then e.2 else lookupCell rest a

/-- Put a bit at an address of a list of cells, keeping the canonical form. -/
def storeCell (cells : List (Nat × Bool)) (a : Nat) (v : Bool) : List (Nat × Bool) :=
  match cells with
  | [] => if v = Memory.unlisted then [] else [(a, v)]
  | e :: rest =>
    if a < e.1 then (if v = Memory.unlisted then e :: rest else (a, v) :: e :: rest)
    else if a = e.1 then (if v = Memory.unlisted then rest else (a, v) :: rest)
    else e :: storeCell rest a v

/-- `bit(c, b)`, reading (00_scope.md R9). -/
def Memory.get (m : Memory) (a : Nat) : Bool := lookupCell m.cells a

/-- `bit(c, b) <- v` (00_scope.md R9). -/
def Memory.set (m : Memory) (a : Nat) (v : Bool) : Memory := { cells := storeCell m.cells a v }

/-- Every bit clear, as CREATE leaves the storage (41_compact_array.md R101). -/
def Memory.clear : Memory := { cells := [] }

/-! ### Fields and blocks -/

/-- `MemRead(c, a, n)`: the sum over `j < n` of `bit(c, a + j) * 2^j` (20_memory.md R44). -/
def memRead (m : Memory) (a n : Nat) : Nat :=
  match n with
  | 0 => 0
  | n + 1 => memRead m a n + (m.get (a + n)).toNat * 2 ^ n

/-- `MemWrite(c, a, n, v)`: bit `j` of `v` to bit address `a + j`, for `j < n` (20_memory.md R42, R44). -/
def memWrite (m : Memory) (a n : Nat) (v : Word) : Memory :=
  match n with
  | 0 => m
  | n + 1 => (memWrite m a n v).set (a + n) (v.getLsbD n)

/-- `BlockRead(c, k)`, the block's bits as a 64-bit word, position 0 the least significant (20_memory.md R45, R46). -/
def blockRead (m : Memory) (k : Nat) : Word := BitVec.ofNat 64 (memRead m (Config.blockBits * k) Config.blockBits)

/-- The first `n` steps of `BlockWrite`'s loop at bit address `a`: bit `p` of `v` goes to `a + p` where that address is
below the capacity, and is dropped where it is not (20_memory.md R46). -/
def writeBelow (m : Memory) (cap a n : Nat) (v : Word) : Memory :=
  match n with
  | 0 => m
  | n + 1 =>
    if a + n < cap then (writeBelow m cap a n v).set (a + n) (v.getLsbD n) else writeBelow m cap a n v

/-- `BlockWrite(c, k, v)` for a context of capacity `cap`: padding bits stay as they are (20_memory.md R46). -/
def blockWrite (m : Memory) (cap k : Nat) (v : Word) : Memory :=
  writeBelow m cap (Config.blockBits * k) Config.blockBits v

/-- The value of item `i`: its slot read as an unsigned number (20_memory.md R41, R42, R44). -/
def Context.item (x : Context) (i : Nat) : Nat := memRead x.mem (x.off i) x.isz.toNat

/-- Every item's value as a 64-bit word, in ascending index order (41_compact_array.md R107). -/
def Context.items (x : Context) : List Word := (List.range x.cnt.toNat).map (fun i => BitVec.ofNat 64 (x.item i))

/-! ### Contexts -/

/-- `ctx[c]`. A number with no context reads as the EMPTY context; no well-formed command reads one (log 15). -/
def State.ctx (s : State) (c : CtxNum) : Context := s.ctxs.getD c.toNat Context.empty

/-- `ctx[c] <- x`, every field. -/
def State.setCtx (s : State) (c : CtxNum) (x : Context) : State := { s with ctxs := s.ctxs.set c.toNat x }

/-- Replace the storage of context `c`, and nothing else. -/
def State.setMem (s : State) (c : CtxNum) (m : Memory) : State := s.setCtx c { s.ctx c with mem := m }

/-- `bit(c, b)` of a state (00_scope.md R9). -/
def State.bit (s : State) (c : CtxNum) (b : Nat) : Bool := (s.ctx c).mem.get b

/-! ### The response port -/

/-- Deliver a response: it becomes the newest of the outbox (30_encoding.md R60; log 2). -/
def State.reply (s : State) (st : Status) (data : List Word) : State :=
  { s with outbox := s.outbox ++ [{ status := st.code, data := data }] }

/-- `return Status(st, data)` (00_scope.md R9). -/
def respond (st : Status) (data : List Word) (s : State) : Result := .next (s.reply st data)

/-! ### Faults -/

/-- Fault entry: the record is written, the code is answered with no data, and nothing else changes (60_exceptions.md
R143). There is no handler, vector, mode or saved program counter. -/
def raiseFault (f : FaultCode) (r : Request) (s : State) : Result :=
  respond (.fault f) [] { s with record := faultRecordOf f r }

/-- The one way back from a fault: the reset input. It puts the contexts and the record at the values of 10_state.md R35
(60_exceptions.md R147; 70_reset_and_hazards.md R170). The host's side of the port is not the block's state (log 9). -/
def State.resetBlock (s : State) : State :=
  { s with ctxs := List.replicate s.cfg.nCtx Context.empty, record := FaultRecord.clear }

/-- The refusal of a command after a fault: `FAULTED`, no data, no state change (60_exceptions.md R145). -/
def refuseFaulted (s : State) : Result := respond .faulted [] s

/-- The order of checks of every command (60_exceptions.md R144): the refusal, then well-formedness, then the command's
own rule. `wf` says whether the request's word is well-formed. -/
def commonChecks (r : Request) (wf : Bool) (s : State) (rule : Result) : Result :=
  if s.record.fault && !(wf && r.cmd == finfoWord) then refuseFaulted s
  else if wf then rule
  else raiseFault .illegal r s

/-- The common checks for a command that the decoder accepted; its word is what the encoder gives (log 16). -/
def guarded (i : Instr) (s : State) (rule : Result) : Result := commonChecks (encode i) (i.wellFormed s.cfg) s rule

/-- A request whose word matches no row of the encoding: never well-formed (30_encoding.md R66, R67). -/
def undecodable (r : Request) (s : State) : Result := commonChecks r false s (raiseFault .illegal r s)

/-! ### The host's side of the port -/

/-- Take the host's next event, if it has one (70_reset_and_hazards.md R171). -/
def takeEvent (s : State) : Option (PortEvent × State) :=
  match s.inbox with
  | [] => none
  | e :: rest => some (e, { s with inbox := rest })

/-- The host presents this request next, before whatever else it will do. -/
def State.present (s : State) (r : Request) : State := { s with inbox := .request r :: s.inbox }

end Sys2Proof.Machine
end

