-- ==== Sys2Proof/Machine/BitVector.lean ====
section
/-! DEFINITION. The Bit Vector commands: BSET, BCLR, BTEST, RDBLK, WRBLK (40_bitvector.md R80 to R89). Each is its rule
after the common checks of 60_exceptions.md R144. -/

namespace Sys2Proof.Machine

/-- The bit index precondition that BSET, BCLR and BTEST share (40_bitvector.md R81): at or above the capacity the
command faults, below it `rule` is its result. -/
def withBitIndex (i : Instr) (c : CtxNum) (b : Word) (s : State) (rule : Result) : Result :=
  if (s.ctx c).cap ≤ b.toNat then raiseFault .bitIndex (encode i) s else rule

/-- The block index precondition that RDBLK and WRBLK share (40_bitvector.md R86, R88). -/
def withBlockIndex (i : Instr) (c : CtxNum) (k : Word) (s : State) (rule : Result) : Result :=
  if (s.ctx c).nblk ≤ k.toNat then raiseFault .blockIndex (encode i) s else rule

/-- BSET (40_bitvector.md R80). -/
def execBset (c : CtxNum) (arg0 arg1 : Word) (s : State) : Result :=
  guarded (.bset c arg0 arg1) s <| withBitIndex (.bset c arg0 arg1) c arg0 s <|
    respond .ok [] (s.setMem c ((s.ctx c).mem.set arg0.toNat true))

/-- BCLR (40_bitvector.md R82). -/
def execBclr (c : CtxNum) (arg0 arg1 : Word) (s : State) : Result :=
  guarded (.bclr c arg0 arg1) s <| withBitIndex (.bclr c arg0 arg1) c arg0 s <|
    respond .ok [] (s.setMem c ((s.ctx c).mem.set arg0.toNat false))

/-- BTEST (40_bitvector.md R84). -/
def execBtest (c : CtxNum) (arg0 arg1 : Word) (s : State) : Result :=
  guarded (.btest c arg0 arg1) s <| withBitIndex (.btest c arg0 arg1) c arg0 s <|
    respond .ok [wordOfBit (s.bit c arg0.toNat)] s

/-- RDBLK (40_bitvector.md R86). -/
def execRdblk (c : CtxNum) (arg0 arg1 : Word) (s : State) : Result :=
  guarded (.rdblk c arg0 arg1) s <| withBlockIndex (.rdblk c arg0 arg1) c arg0 s <|
    respond .ok [blockRead (s.ctx c).mem arg0.toNat] s

/-- WRBLK (40_bitvector.md R88). -/
def execWrblk (c : CtxNum) (arg0 arg1 : Word) (s : State) : Result :=
  guarded (.wrblk c arg0 arg1) s <| withBlockIndex (.wrblk c arg0 arg1) c arg0 s <|
    respond .ok [] (s.setMem c (blockWrite (s.ctx c).mem (s.ctx c).cap arg0.toNat arg1))

end Sys2Proof.Machine
end

