-- ==== Sys2Proof/Machine/CompactArray.lean ====
section
/-! DEFINITION. The Compact Array commands: CREATE, SETITEM, GETITEM, GETITEMS, COPY, INFO (41_compact_array.md R100 to
R111). Each is its rule after the common checks of 60_exceptions.md R144. -/

namespace Sys2Proof.Machine

/-- The context that CREATE leaves: configured, of width `z` and count `n`, all bits clear (41_compact_array.md R101). -/
def createdContext (n : Word) (z : Nat) : Context :=
  { tag := .configured, isz := BitVec.ofNat 6 z, cnt := n, mem := Memory.clear }

/-- CREATE (41_compact_array.md R101, R102; check order 60_exceptions.md R146). -/
def execCreate (c : CtxNum) (arg0 arg1 : Word) (s : State) : Result :=
  guarded (.create c arg0 arg1) s <|
    if s.cfg.zeroWidthReject = true ∧ bitsNeeded arg1.toNat = 0 then respond .cfgZeroWidth [] s
    else if s.cfg.W ≤ bitsNeeded arg1.toNat then respond .cfgWidth [] s
    else if s.cfg.memBits < arg0.toNat * bitsNeeded arg1.toNat then respond .cfgCapacity [] s
    else respond .ok [] (s.setCtx c (createdContext arg0 (bitsNeeded arg1.toNat)))

/-- SETITEM (41_compact_array.md R103, R104). -/
def execSetitem (c : CtxNum) (arg0 arg1 : Word) (s : State) : Result :=
  guarded (.setitem c arg0 arg1) s <|
    let x := s.ctx c
    if x.cnt.toNat ≤ arg0.toNat then raiseFault .index (encode (.setitem c arg0 arg1)) s
    else if maxItem x.isz.toNat < arg1.toNat then raiseFault .value (encode (.setitem c arg0 arg1)) s
    else respond .ok [] (s.setMem c (memWrite x.mem (x.off arg0.toNat) x.isz.toNat arg1))

/-- GETITEM (41_compact_array.md R105). -/
def execGetitem (c : CtxNum) (arg0 arg1 : Word) (s : State) : Result :=
  guarded (.getitem c arg0 arg1) s <|
    let x := s.ctx c
    if x.cnt.toNat ≤ arg0.toNat then raiseFault .index (encode (.getitem c arg0 arg1)) s
    else respond .ok [BitVec.ofNat 64 (x.item arg0.toNat)] s

/-- GETITEMS (41_compact_array.md R107). -/
def execGetitems (c : CtxNum) (arg0 arg1 : Word) (s : State) : Result :=
  guarded (.getitems c arg0 arg1) s <| respond .ok (s.ctx c).items s

/-- COPY: the destination becomes all the source was before the command (41_compact_array.md R109). -/
def execCopy (d c : CtxNum) (arg0 arg1 : Word) (s : State) : Result :=
  guarded (.copy d c arg0 arg1) s <| respond .ok [] (s.setCtx d (s.ctx c))

/-- INFO (41_compact_array.md R111). -/
def execInfo (c : CtxNum) (arg0 arg1 : Word) (s : State) : Result :=
  guarded (.info c arg0 arg1) s <|
    let x := s.ctx c
    respond .ok [x.tag.code.setWidth 64, x.isz.setWidth 64, x.cnt] s

end Sys2Proof.Machine
end

