-- ==== Sys2Proof/Machine/StatusCommand.lean ====
section
/-! DEFINITION. The status command FINFO (42_status.md R130, R131). -/

namespace Sys2Proof.Machine

/-- The words by which FINFO reads out the fault record (42_status.md R130). -/
def FaultRecord.words (f : FaultRecord) : List Word :=
  [wordOfBit f.fault, f.fcode.setWidth 64, f.fcmd.setWidth 64, f.farg0, f.farg1]

/-- FINFO: it runs whether or not a fault is recorded, and it does not clear the record (42_status.md R130, R131). -/
def execFinfo (arg0 arg1 : Word) (s : State) : Result :=
  guarded (.finfo arg0 arg1) s <| respond .ok s.record.words s

end Sys2Proof.Machine
end

