-- ==== Sys2Proof/Machine/Dispatch.lean ====
section
/-! DEFINITION. One arm per command (30_encoding.md R64). -/

namespace Sys2Proof.Machine

-- 60_exceptions.md R144: run the rule of the command that CMD[7:0] names.
def exec (i : Instr) (s : State) : Host.Outcome State Fault Refusal :=
  match i with
  | .create c arg0 arg1 => Sys2Proof.Machine.execCreate c arg0 arg1 s
  | .setitem c arg0 arg1 => Sys2Proof.Machine.execSetitem c arg0 arg1 s
  | .getitem c arg0 arg1 => Sys2Proof.Machine.execGetitem c arg0 arg1 s
  | .getitems c arg0 arg1 => Sys2Proof.Machine.execGetitems c arg0 arg1 s
  | .copy d c arg0 arg1 => Sys2Proof.Machine.execCopy d c arg0 arg1 s
  | .info c arg0 arg1 => Sys2Proof.Machine.execInfo c arg0 arg1 s
  | .bset c arg0 arg1 => Sys2Proof.Machine.execBset c arg0 arg1 s
  | .bclr c arg0 arg1 => Sys2Proof.Machine.execBclr c arg0 arg1 s
  | .btest c arg0 arg1 => Sys2Proof.Machine.execBtest c arg0 arg1 s
  | .rdblk c arg0 arg1 => Sys2Proof.Machine.execRdblk c arg0 arg1 s
  | .wrblk c arg0 arg1 => Sys2Proof.Machine.execWrblk c arg0 arg1 s
  | .finfo arg0 arg1 => Sys2Proof.Machine.execFinfo arg0 arg1 s

end Sys2Proof.Machine
end

