-- ==== Sys2Proof/Machine/Step.lean ====
section
/-! DEFINITION. One step: the block takes the host's next event and carries it out whole (20_memory.md R50;
70_reset_and_hazards.md R171). With no event it holds its state (60_exceptions.md R157; log 8). -/

namespace Sys2Proof.Machine

/-- One step. A reset during a command abandons it: no response, and the reset state (70_reset_and_hazards.md R175). -/
def step (s : State) : Host.Outcome State Fault Refusal :=
  match takeEvent s with
  | none => .next s
  | some (.reset, t) => .next t.resetBlock
  | some (.resetDuring _, t) => .next t.resetBlock
  | some (.request r, t) =>
    match decode r with
    | .error _ => undecodable r t
    | .ok i => exec i t

/-- `s` with the instruction whose bits are `w` presented next on the command port, operands from the same number (log 7). -/
def State.withFetchWord (s : State) (nbits w : Nat) : State := s.present (requestOfBits nbits w)

end Sys2Proof.Machine
end

