-- ==== Sys2Proof/Machine/HostLayout.lean ====
section
/-! DEFINITION. What a host keeps of a context and how it restores it: the field layout of 41_compact_array.md R113, the
restore sequence of R112 and the pseudo-instruction `createw` it uses (30_encoding.md R70). Host software over the
block's commands; the syntax, key names and byte order of a serialised object are the host's (R113). -/

namespace Sys2Proof.Machine

/-- The fields of 41_compact_array.md R113. A zero `item` or `count` is omitted (log 18). -/
structure SavedContext where
  item : Option (BitVec 6)
  count : Option Word
  blocks : List Word
  deriving DecidableEq, Repr

/-- A context's saved form: its width and count as INFO reads them, its blocks as RDBLK reads them (R113). -/
def Context.save (x : Context) : SavedContext :=
  { item := if x.isz = 0 then none else some x.isz
    count := if x.cnt = 0 then none else some x.cnt
    blocks := (List.range x.nblk).map (fun k => blockRead x.mem k) }

/-- `bwrite cN, b, v` (30_encoding.md R70 a): BSET for 1, BCLR for 0, and no other `v`. -/
def bwrite (c : CtxNum) (b : Word) (v : Nat) : Option Instr :=
  if v = 1 then some (.bset c b 0) else if v = 0 then some (.bclr c b 0) else none

/-- `createw cN, itemsCount, s` with `s` at most 63 (30_encoding.md R70 b): CREATE with `maxValue = 2^s - 1`. -/
def createw (c : CtxNum) (n : Word) (s : Nat) : Option Instr :=
  if s ≤ 63 then some (.create c n (BitVec.ofNat 64 (maxItem s))) else none

/-- WRBLK of each of these blocks in turn, the first at block `k` (41_compact_array.md R112). -/
def writeBlocksFrom (d : CtxNum) (k : Nat) (blocks : List Word) : List Instr :=
  match blocks with
  | [] => []
  | b :: rest => .wrblk d (BitVec.ofNat 64 k) b :: writeBlocksFrom d (k + 1) rest

/-- The restore sequence into context `d`: `createw`, then WRBLK of every block (41_compact_array.md R112). -/
def SavedContext.restore (d : CtxNum) (saved : SavedContext) : List Instr :=
  (createw d (saved.count.getD 0) (saved.item.getD 0).toNat).toList ++ writeBlocksFrom d 0 saved.blocks

/-- The requests that present these commands, in order (70_reset_and_hazards.md R177). -/
def requestsOf (is : List Instr) : List PortEvent := is.map (fun i => .request (encode i))

end Sys2Proof.Machine
end

