-- ==== Sys2Proof/Machine/Assembler.lean ====
section
/-! DEFINITION. The assembler syntax of 30_encoding.md R69 and the pseudo-instructions of R70: a function from a line of
text to the command it stands for. It is outside the block. Text conventions the spec leaves open: log 17. -/

namespace Sys2Proof.Machine

/-- Why a line is rejected. -/
inductive AsmError where
  /-- The first word of the line is no mnemonic of R69 or R70. -/
  | unknownMnemonic
  /-- An operand is neither a context `c0` to `c15` nor a number below 2^64. -/
  | badOperand
  /-- The operands do not fit the mnemonic: R69's order, or the range R70 gives. -/
  | wrongOperands
  deriving DecidableEq, Repr

/-- An operand: a context or an unsigned 64-bit number (30_encoding.md R69). -/
inductive AsmOperand where
  | ctx (c : CtxNum)
  | num (v : Word)
  deriving DecidableEq, Repr

/-- The mnemonics of 30_encoding.md R69 and R70. -/
inductive Mnemonic where
  | create | setitem | getitem | getitems | copy | info | bset | bclr | btest | rdblk | wrblk | finfo
  | bwrite | createw
  deriving DecidableEq, Repr

/-- How each mnemonic is spelled: lower case (30_encoding.md R69). -/
def mnemonicTable : List (List Char × Mnemonic) :=
  [ ("create".toList, .create), ("setitem".toList, .setitem), ("getitem".toList, .getitem),
    ("getitems".toList, .getitems), ("copy".toList, .copy), ("info".toList, .info), ("bset".toList, .bset),
    ("bclr".toList, .bclr), ("btest".toList, .btest), ("rdblk".toList, .rdblk), ("wrblk".toList, .wrblk),
    ("finfo".toList, .finfo), ("bwrite".toList, .bwrite), ("createw".toList, .createw) ]

/-- A space or a tab. -/
def isBlank (ch : Char) : Bool := ch == ' ' || ch == '\t'

/-- A string without the blanks at its ends. -/
def trimBlanks (cs : List Char) : List Char := ((cs.dropWhile isBlank).reverse.dropWhile isBlank).reverse

/-- The pieces of a string between its commas. -/
def splitCommas (cs : List Char) : List (List Char) :=
  match cs with
  | [] => [[]]
  | ch :: rest =>
    if ch = ',' then [] :: splitCommas rest
    else
      match splitCommas rest with
      | [] => [[ch]]
      | piece :: more => (ch :: piece) :: more

/-- The value of a decimal digit. -/
def decimalDigit (ch : Char) : Option Nat :=
  if '0' ≤ ch ∧ ch ≤ '9' then some (ch.toNat - '0'.toNat) else none

/-- The value of a hexadecimal digit, of either case. -/
def hexDigit (ch : Char) : Option Nat :=
  if 'a' ≤ ch ∧ ch ≤ 'f' then some (ch.toNat - 'a'.toNat + 10)
  else if 'A' ≤ ch ∧ ch ≤ 'F' then some (ch.toNat - 'A'.toNat + 10)
  else decimalDigit ch

/-- The value of a string of digits in a base, the digits read so far being worth `acc`. -/
def digitsValue (base : Nat) (digit : Char → Option Nat) (acc : Nat) (cs : List Char) : Option Nat :=
  match cs with
  | [] => some acc
  | ch :: rest =>
    match digit ch with
    | none => none
    | some d => digitsValue base digit (acc * base + d) rest

/-- A string of one decimal digit or more. -/
def decimalValue (cs : List Char) : Option Nat := if cs = [] then none else digitsValue 10 decimalDigit 0 cs

/-- An unsigned number, decimal or `0x` hexadecimal (30_encoding.md R69). -/
def numberValue (cs : List Char) : Option Nat :=
  match cs with
  | '0' :: 'x' :: rest => if rest = [] then none else digitsValue 16 hexDigit 0 rest
  | _ => decimalValue cs

/-- One operand: `c<n>` with `n` decimal, or a number below 2^64 (30_encoding.md R69). A context above 15 has no
encoding (R61). -/
def asmOperand (cs : List Char) : Option AsmOperand :=
  match cs with
  | 'c' :: rest => (decimalValue rest).bind fun n => if n < 16 then some (.ctx (BitVec.ofNat 4 n)) else none
  | _ => (numberValue cs).bind fun v => if v < 2 ^ 64 then some (.num (BitVec.ofNat 64 v)) else none

/-- Every operand of a list of strings. -/
def asmOperands (pieces : List (List Char)) : Option (List AsmOperand) :=
  match pieces with
  | [] => some []
  | p :: rest => (asmOperand (trimBlanks p)).bind fun o => (asmOperands rest).map fun os => o :: os

/-- At most one number; an omitted operand means 0 (30_encoding.md R69). -/
def oneNumber (os : List AsmOperand) : Option Word :=
  match os with
  | [] => some 0
  | [.num a] => some a
  | _ => none

/-- At most two numbers; an omitted operand means 0 (30_encoding.md R69). -/
def twoNumbers (os : List AsmOperand) : Option (Word × Word) :=
  match os with
  | [] => some (0, 0)
  | [.num a] => some (a, 0)
  | [.num a, .num b] => some (a, b)
  | _ => none

/-- The command of a mnemonic and its operands: the table of 30_encoding.md R69, and the expansions of R70. -/
def asmCommand (m : Mnemonic) (os : List AsmOperand) : Option Instr :=
  match m, os with
  | .create, .ctx c :: rest => (twoNumbers rest).map fun p => .create c p.1 p.2
  | .setitem, .ctx c :: rest => (twoNumbers rest).map fun p => .setitem c p.1 p.2
  | .getitem, .ctx c :: rest => (oneNumber rest).map fun a => .getitem c a 0
  | .getitems, [.ctx c] => some (.getitems c 0 0)
  | .copy, [.ctx d, .ctx c] => some (.copy d c 0 0)
  | .info, [.ctx c] => some (.info c 0 0)
  | .bset, .ctx c :: rest => (oneNumber rest).map fun a => .bset c a 0
  | .bclr, .ctx c :: rest => (oneNumber rest).map fun a => .bclr c a 0
  | .btest, .ctx c :: rest => (oneNumber rest).map fun a => .btest c a 0
  | .rdblk, .ctx c :: rest => (oneNumber rest).map fun a => .rdblk c a 0
  | .wrblk, .ctx c :: rest => (twoNumbers rest).map fun p => .wrblk c p.1 p.2
  | .finfo, [] => some (.finfo 0 0)
  | .bwrite, [.ctx c, .num b, .num v] => bwrite c b v.toNat
  | .createw, [.ctx c, .num n, .num s] => createw c n s.toNat
  | _, _ => none

/-- The mnemonic that a string spells. -/
def mnemonicOf (cs : List Char) : Option Mnemonic := mnemonicTable.lookup cs

/-- One line of assembler text (30_encoding.md R69): a comment runs from `;` to the end of the line; a line with nothing
else on it stands for no command. -/
def assembleLine (line : String) : Except AsmError (Option Instr) :=
  let text := trimBlanks (line.toList.takeWhile (fun ch => !(ch == ';')))
  let word := text.takeWhile (fun ch => !isBlank ch)
  let rest := trimBlanks (text.dropWhile (fun ch => !isBlank ch))
  if text = [] then .ok none
  else
    match mnemonicOf word with
    | none => .error .unknownMnemonic
    | some m =>
      match asmOperands (if rest = [] then [] else splitCommas rest) with
      | none => .error .badOperand
      | some os =>
        match asmCommand m os with
        | none => .error .wrongOperands
        | some i => .ok (some i)

end Sys2Proof.Machine
end

