-- ==== Sys2Proof/Safety.lean ====
section
/-! DEFINITION. The invariants of the spec and the relations between states that claims are stated in. -/

namespace Sys2Proof.Machine

/-- The fault codes of 60_exceptions.md R140, written out from its table. -/
def faultCodes : List (BitVec 8) := [0x41, 0x42, 0x43, 0x44, 0x45]

/-- All the status codes of 60_exceptions.md R140, written out from its table. -/
def statusCodes : List (BitVec 8) := [0x00, 0x01, 0x02, 0x03] ++ faultCodes ++ [0x80]

/-- What the spec says of every context in every reachable state: the storage is in canonical form and inside `MEM_BITS`
(10_state.md R20, R26); an EMPTY context has width and count 0 (R24); the width is below `W` (R22); the capacity fits
(R25); no CONFIGURED context has width 0 where CREATE rejects it (41_compact_array.md R112); every padding bit is 0
(R26). Bits at or above `64 * nblk` are left free (R26, R35). -/
abbrev Context.Inv (cfg : Config) (x : Context) : Prop :=
  x.mem.wf ∧ (∀ e ∈ x.mem.cells, e.1 < cfg.memBits) ∧
    (x.tag = .empty → x.isz = 0 ∧ x.cnt = 0) ∧
    x.isz.toNat < cfg.W ∧ x.cap ≤ cfg.memBits ∧
    (cfg.zeroWidthReject = true → x.tag = .configured → x.isz ≠ 0) ∧
    ∀ b < Config.blockBits * x.nblk, x.cap ≤ b → x.mem.get b = false

/-- The fault record holds zeros until a fault, and a fault's code after it (10_state.md R28, R35). -/
abbrev FaultRecord.Inv (f : FaultRecord) : Prop :=
  (f.fault = false → f = FaultRecord.clear) ∧ (f.fault = true → f.fcode ∈ faultCodes)

/-- The invariant of the machine: legal parameters (00_scope.md R6), `N_CTX` contexts (10_state.md R20), each as the spec
says, and the fault record. -/
abbrev State.Inv (s : State) : Prop :=
  s.cfg.Legal ∧ s.ctxs.length = s.cfg.nCtx ∧ (∀ x ∈ s.ctxs, x.Inv s.cfg) ∧ s.record.Inv

/-- The commands that use context `c` get past the common checks (60_exceptions.md R144): no fault is recorded and the
context exists. -/
abbrev State.Ready (s : State) (c : CtxNum) : Prop := s.record.fault = false ∧ c.toNat < s.cfg.nCtx

/-- The state `s` with this one response delivered and nothing else changed (30_encoding.md R60). -/
abbrev State.answeredWith (s : State) (status : BitVec 8) (data : List Word) : State :=
  { s with outbox := s.outbox ++ [{ status := status, data := data }] }

/-- The state `s` after fault entry with this code for this request (60_exceptions.md R143): the record written, the code
answered with no data, nothing else changed. -/
abbrev State.faultedWith (s : State) (code : BitVec 8) (r : Request) : State :=
  { s with
    record := { fault := true, fcode := code, fcmd := r.cmd, farg0 := r.arg0, farg1 := r.arg1 }
    outbox := s.outbox ++ [{ status := code, data := [] }] }

/-- The block's own state is the same: contexts, record and parameters. The port's events and responses are not the
block's state (10_state.md R33). -/
abbrev SameBlock (s t : State) : Prop := t.ctxs = s.ctxs ∧ t.record = s.record ∧ t.cfg = s.cfg

/-- Nothing but storage bits and the outbox differs: every context keeps tag, width and count, and the record, the
parameters and the host's further events are the same. -/
abbrev OnlyStorageDiffers (s t : State) : Prop :=
  t.record = s.record ∧ t.cfg = s.cfg ∧ t.inbox = s.inbox ∧ t.ctxs.length = s.ctxs.length ∧
    ∀ c, (t.ctx c).tag = (s.ctx c).tag ∧ (t.ctx c).isz = (s.ctx c).isz ∧ (t.ctx c).cnt = (s.ctx c).cnt

/-- Exactly one response was delivered, this one. -/
abbrev Answered (s t : State) (status : BitVec 8) (data : List Word) : Prop :=
  t.outbox = s.outbox ++ [{ status := status, data := data }]

/-- The command, carried out in either state, completes with the same response. -/
abbrev SameAnswer (i : Instr) (s t : State) : Prop :=
  ∃ s' t' resp, exec i s = .next s' ∧ exec i t = .next t' ∧ s'.outbox = s.outbox ++ [resp] ∧ t'.outbox = t.outbox ++ [resp]

/-- Two contexts that agree on all that the spec lets a command observe: the bits at `64 * nblk` and above are outside
the context (10_state.md R26). -/
abbrev Context.SameVisible (x y : Context) : Prop :=
  y.tag = x.tag ∧ y.isz = x.isz ∧ y.cnt = x.cnt ∧ ∀ b < Config.blockBits * x.nblk, y.mem.get b = x.mem.get b

/-- Two states that agree on all but storage bits outside the contexts. -/
abbrev SameVisible (s t : State) : Prop :=
  t.cfg = s.cfg ∧ t.record = s.record ∧ t.inbox = s.inbox ∧ t.outbox = s.outbox ∧ t.ctxs.length = s.ctxs.length ∧
    ∀ c, Context.SameVisible (s.ctx c) (t.ctx c)

/-- 30_encoding.md R66, written from the match and mask pairs of R65 and the two value checks. -/
abbrev wellFormedCmd (cfg : Config) (w : CmdWord) : Prop :=
  ∃ row ∈ encodingTable, row.accepts w = true ∧ (w = finfoWord ∨ (ctxField w).toNat < cfg.nCtx) ∧
    (row ≠ copyRow ∨ (srcField w).toNat < cfg.nCtx)

/-- The context a command acts on, its CTX (10_state.md R34); FINFO acts on none. -/
def targetOf (i : Instr) : Option CtxNum :=
  match i with
  | .create c _ _ => some c
  | .setitem c _ _ => some c
  | .getitem c _ _ => some c
  | .getitems c _ _ => some c
  | .copy d _ _ _ => some d
  | .info c _ _ => some c
  | .bset c _ _ => some c
  | .bclr c _ _ => some c
  | .btest c _ _ => some c
  | .rdblk c _ _ => some c
  | .wrblk c _ _ => some c
  | .finfo _ _ => none

/-- CREATE and COPY, the commands that write tag, width or count (10_state.md R21, R22, R23, R34). -/
def configures (i : Instr) : Bool :=
  match i with
  | .create _ _ _ => true
  | .copy _ _ _ _ => true
  | .setitem _ _ _ => false
  | .getitem _ _ _ => false
  | .getitems _ _ _ => false
  | .info _ _ _ => false
  | .bset _ _ _ => false
  | .bclr _ _ _ => false
  | .btest _ _ _ => false
  | .rdblk _ _ _ => false
  | .wrblk _ _ _ => false
  | .finfo _ _ => false

/-- The read commands of 20_memory.md R51. -/
def isReadCommand (i : Instr) : Bool :=
  match i with
  | .getitem _ _ _ => true
  | .getitems _ _ _ => true
  | .btest _ _ _ => true
  | .rdblk _ _ _ => true
  | .info _ _ _ => true
  | .finfo _ _ => true
  | .create _ _ _ => false
  | .copy _ _ _ _ => false
  | .setitem _ _ _ => false
  | .bset _ _ _ => false
  | .bclr _ _ _ => false
  | .wrblk _ _ _ => false

/-- How many words `DATA` has when the status is OK (30_encoding.md R68). -/
def okDataLength (i : Instr) (s : State) : Nat :=
  match i with
  | .create _ _ _ => 0
  | .setitem _ _ _ => 0
  | .copy _ _ _ _ => 0
  | .bset _ _ _ => 0
  | .bclr _ _ _ => 0
  | .wrblk _ _ _ => 0
  | .getitem _ _ _ => 1
  | .getitems c _ _ => (s.ctx c).cnt.toNat
  | .info _ _ _ => 3
  | .btest _ _ _ => 1
  | .rdblk _ _ _ => 1
  | .finfo _ _ => 5

/-- The state after a list of commands: the left-to-right fold of their rules (20_memory.md R54). -/
def execAll (is : List Instr) (s : State) : Result :=
  match is with
  | [] => .next s
  | i :: rest =>
    match exec i s with
    | .next t => execAll rest t
    | .fault r => .fault r
    | .refused r => .refused r

/-- How many of the host's events are requests that are carried out to their response. -/
def requestCount (es : List PortEvent) : Nat :=
  match es with
  | [] => 0
  | .request _ :: rest => requestCount rest + 1
  | .reset :: rest => requestCount rest
  | .resetDuring _ :: rest => requestCount rest

/-- The response says that the run ended at a fault: a fault status or `FAULTED` (70_reset_and_hazards.md R177). -/
def Response.endsAtFault (r : Response) : Bool := r.status ∈ faultCodes || r.status == 0x80

/-- A run that assumes no fault (70_reset_and_hazards.md R177): none of the responses so far says so. -/
abbrev State.NoFaultSoFar (s : State) : Prop := ∀ r ∈ s.outbox, r.endsAtFault = false

end Sys2Proof.Machine
end

