-- ==== Sys2Proof/Certificates/Slice0/Obligations.lean ====
section
/-! DEFINITION. The statements about this model, each from a numbered rule of spec/. The conclusions are written out from
the rules: next states with literal status codes (60_exceptions.md R140), contents bit by bit. The hypotheses speak of the
state and the operands alone; `s.Ready c` says no fault is recorded and context `c` exists, `s.Inv` is the invariant that
`Obligations.EveryStepKeepsTheInvariant` is about. -/

open Sys2Proof Sys2Proof.Machine

/-! ### Encoding -/

/-- Decoding an encoded command gives the command, for all twelve and every value of every field and operand. -/
def Obligations.DecodeOfEncodeGivesTheCommandBack : Prop :=
  ∀ i : Instr, decode (encode i) = .ok i

/-- Encoding a decoded request gives the request, so no bit of an accepted word is dropped, and the word that fault entry
records (encoded again, log 16) is the word presented. -/
def Obligations.EncodeOfDecodeGivesTheRequestBack : Prop :=
  ∀ (r : Request) (i : Instr), decode r = .ok i → encode i = r

/-- The decoder accepts exactly the words that match a row of 30_encoding.md R65, and no word matches two rows. -/
def Obligations.DecoderAcceptsExactlyTheRowsOfTheTable : Prop :=
  (∀ r : Request, (∃ i, decode r = .ok i) ↔ ∃ row ∈ encodingTable, row.accepts r.cmd = true) ∧
    encodingTable.Pairwise fun p q => ∀ w, ¬ (p.accepts w = true ∧ q.accepts w = true)

/-- The worked encodings of 30_encoding.md R71, all thirteen, from the text of each. -/
def Obligations.WorkedEncodingsAssembleAsTheSpecWritesThem : Prop :=
  [ assembleLine "create c0, 3, 5", assembleLine "setitem c1, 2, 7", assembleLine "getitem c0, 1",
    assembleLine "getitems c1", assembleLine "copy c1, c0", assembleLine "copy c0, c1", assembleLine "info c0",
    assembleLine "bset c0, 64", assembleLine "bclr c1, 0", assembleLine "btest c0, 5", assembleLine "rdblk c1, 0",
    assembleLine "wrblk c0, 1, 0xFF", assembleLine "finfo" ].map
      (fun line => line.toOption.join.map encode) =
  [ some ⟨0x00000001, 3, 5⟩, some ⟨0x00000102, 2, 7⟩, some ⟨0x00000003, 1, 0⟩, some ⟨0x00000104, 0, 0⟩,
    some ⟨0x00000105, 0, 0⟩, some ⟨0x00001005, 0, 0⟩, some ⟨0x00000006, 0, 0⟩, some ⟨0x00000008, 64, 0⟩,
    some ⟨0x00000109, 0, 0⟩, some ⟨0x0000000A, 5, 0⟩, some ⟨0x0000010C, 0, 0⟩, some ⟨0x0000000D, 1, 0xFF⟩,
    some ⟨0x0000000F, 0, 0⟩ ]

/-- Words written out from 30_encoding.md R65 decode to the command they stand for, one of each family and each format of
fields. -/
def Obligations.WrittenOutWordsDecodeToTheirCommands : Prop :=
  decodeTableWord 32 0b00000000000000000000000100000010 = some (.setitem 1 0 0) ∧
  decodeTableWord 32 0b00000000000000001010010100000101 = some (.copy 5 10 0 0) ∧
  decodeTableWord 32 0b00000000000000000000111100001101 = some (.wrblk 15 0 0) ∧
  decodeTableWord 32 0b00000000000000000000000000001111 = some (.finfo 0 0) ∧
  decodeTableWord 32 0b00000000000000000000000100001111 = none ∧
  decodeTableWord 32 0b00000000000000000000000000000000 = none

/-! ### Requests, checks and steps -/

/-- A step that takes a request whose word decodes is `exec` of that command, with the request taken from the port. With
nothing presented the block holds its state (60_exceptions.md R157). -/
def Obligations.StepRunsTheDecodedCommand : Prop :=
  (∀ (s : State) (r : Request) (es : List PortEvent) (i : Instr), s.inbox = .request r :: es → decode r = .ok i →
    step s = exec i { s with inbox := es }) ∧
  (∀ s : State, s.inbox = [] → step s = .next s)

/-- The order of checks of every request: the refusal, then well-formedness as R66 writes it, then the command whose
opcode the word carries. -/
def Obligations.RequestsAreCheckedInTheOrderOfTheSpec : Prop :=
  ∀ (s : State) (r : Request) (es : List PortEvent), s.inbox = .request r :: es →
    (s.record.fault = true ∧ ¬ (wellFormedCmd s.cfg r.cmd ∧ r.cmd = 0x0000000F) →
      step s = .next (({ s with inbox := es } : State).answeredWith 0x80 [])) ∧
    (s.record.fault = false ∧ ¬ wellFormedCmd s.cfg r.cmd →
      step s = .next (({ s with inbox := es } : State).faultedWith 0x41 r)) ∧
    (wellFormedCmd s.cfg r.cmd ∧ (s.record.fault = false ∨ r.cmd = 0x0000000F) →
      ∃ i, encode i = r ∧ i.wellFormed s.cfg = true ∧ step s = exec i { s with inbox := es })

/-- Reserved opcodes, reserved bits and nonzero unused fields raise `F_ILLEGAL` and do nothing else. -/
def Obligations.ReservedEncodingsRaiseIllegal : Prop :=
  ∀ (s : State) (r : Request) (es : List PortEvent), s.inbox = .request r :: es → s.record.fault = false →
    (opcField r.cmd ∈ [0x00#8, 0x07#8, 0x0B#8, 0x0E#8] ∨ 0x10 ≤ (opcField r.cmd).toNat ∨ rsvdField r.cmd ≠ 0 ∨
      (opcField r.cmd ≠ 0x05 ∧ srcField r.cmd ≠ 0) ∨ (opcField r.cmd = 0x0F ∧ ctxField r.cmd ≠ 0)) →
    step s = .next (({ s with inbox := es } : State).faultedWith 0x41 r)

/-- After a fault every command but a well-formed FINFO is refused, changes nothing, and the first fault stays recorded. -/
def Obligations.CommandsAreRefusedAfterAFault : Prop :=
  ∀ (i : Instr) (s : State), s.record.fault = true →
    ((∀ a b, i ≠ .finfo a b) → exec i s = .next (s.answeredWith 0x80 [])) ∧
    ((∃ a b, i = .finfo a b) → ∃ data, exec i s = .next (s.answeredWith 0x00 data))

/-- A command that names a context at or above `N_CTX` raises `F_ILLEGAL` and does nothing else (30_encoding.md R66). -/
def Obligations.MissingContextsRaiseIllegal : Prop :=
  ∀ (i : Instr) (s : State), s.record.fault = false →
    ((∃ c, targetOf i = some c ∧ s.cfg.nCtx ≤ c.toNat) ∨ (∃ d c a b, i = .copy d c a b ∧ s.cfg.nCtx ≤ c.toNat)) →
    exec i s = .next (s.faultedWith 0x41 (encode i))

/-- Fault entry is precise: when a request faults, whether its word decodes or not, the record holds the code and the
request as presented, the answer is that code with no data, and nothing else has changed. -/
def Obligations.FaultEntryWritesTheRecordAndNothingElse : Prop :=
  ∀ (s t : State) (r : Request) (es : List PortEvent), s.inbox = .request r :: es → step s = .next t →
    s.record.fault = false → t.record.fault = true →
    ∃ code ∈ faultCodes, t = ({ s with inbox := es } : State).faultedWith code r

/-- No request clears or changes a recorded fault, and a reset does clear it. -/
def Obligations.OnlyResetClearsTheFaultRecord : Prop :=
  ∀ s t : State, step s = .next t →
    (s.record.fault = true → (s.inbox = [] ∨ ∃ r es, s.inbox = .request r :: es) → t.record = s.record) ∧
    ((∃ es, s.inbox = .reset :: es ∨ ∃ r, s.inbox = .resetDuring r :: es) →
      t.record = { fault := false, fcode := 0, fcmd := 0, farg0 := 0, farg1 := 0 })

/-- `fault_o` is `FAULT` at all times, in every state. So it rises in a step that answers a fault code with no fault recorded
before; it rises in no other step, and falls only at a reset. -/
def Obligations.FaultOutputRisesOnAFaultAndFallsAtReset : Prop :=
  (∀ s : State, s.faultOut = s.record.fault) ∧
  ∀ s t : State, step s = .next t →
    (∀ code ∈ faultCodes, s.record.fault = false → t.outbox = s.outbox ++ [{ status := code, data := [] }] →
      s.faultOut = false ∧ t.faultOut = true) ∧
    (s.faultOut = false → t.faultOut = true →
      ∃ code ∈ faultCodes, t.outbox = s.outbox ++ [{ status := code, data := [] }] ∧ t.record.fcode = code) ∧
    (s.faultOut = true → t.faultOut = false → ∃ es, s.inbox = .reset :: es ∨ ∃ r, s.inbox = .resetDuring r :: es)

/-! ### Responses -/

/-- Every request is answered by exactly one response, in one step, whatever the state. -/
def Obligations.EveryRequestGetsExactlyOneResponse : Prop :=
  ∀ (s : State) (r : Request) (es : List PortEvent), s.inbox = .request r :: es →
    ∃ t resp, step s = .next t ∧ t.inbox = es ∧ t.outbox = s.outbox ++ [resp]

/-- Whatever the host does, the run gets through all of it, and delivers one response for each request carried out. -/
def Obligations.RunsGetThroughEverythingTheHostDoes : Prop :=
  ∀ s : State, ∃ t rs, Sys2Proof.core.run s.inbox.length s = .next t ∧ t.inbox = [] ∧ t.outbox = s.outbox ++ rs ∧
    rs.length = requestCount s.inbox

/-- The state after the requests of a list of commands is the left-to-right fold of the commands' rules. -/
def Obligations.RunsAreTheFoldOfTheCommands : Prop :=
  ∀ (is : List Instr) (s : State) (es : List PortEvent), s.inbox = requestsOf is ++ es →
    Sys2Proof.core.run is.length s = execAll is { s with inbox := es }

/-- A run of requests from a state with no fault ends at a fault exactly when one of its responses says so, by a fault
status or `FAULTED` (70_reset_and_hazards.md R177): what a claim that assumes no fault may assume of either it may of both. -/
def Obligations.RunsEndAtAFaultWhenAResponseSaysSo : Prop :=
  ∀ (n : Nat) (s t : State), (∀ e ∈ s.inbox, ∃ r, e = .request r) → s.record.fault = false → s.NoFaultSoFar →
    Sys2Proof.core.run n s = .next t → (t.record.fault = true ↔ ¬ t.NoFaultSoFar)

/-- Every response has one of the ten statuses of 60_exceptions.md R140, carries data only when it is OK, and then has the
length that 30_encoding.md R68 gives the command. -/
def Obligations.ResponsesHaveTheStatusesAndLengthsOfTheSpec : Prop :=
  (∀ (s : State) (r : Request) (es : List PortEvent), s.inbox = .request r :: es →
    ∃ t resp, step s = .next t ∧ t.outbox = s.outbox ++ [resp] ∧ resp.status ∈ statusCodes ∧
      (resp.status ≠ 0x00 → resp.data = [])) ∧
  (∀ (i : Instr) (s : State), ∃ t resp, exec i s = .next t ∧ t.outbox = s.outbox ++ [resp] ∧
    (resp.status = 0x00 → resp.data.length = okDataLength i s))

/-! ### Whole-machine frames and invariants -/

/-- The invariant of 10_state.md R20 to R28 holds right after reset, at the reference parameters and at all others. -/
def Obligations.ResetMeetsTheInvariant : Prop :=
  State.reset.Inv ∧ ∀ cfg : Config, cfg.Legal → (State.resetWith cfg).Inv

/-- Every step from every state that meets the invariant gives a state that meets it. -/
def Obligations.EveryStepKeepsTheInvariant : Prop :=
  ∀ s t : State, s.Inv → step s = .next t → t.Inv

/-- A bit at `64 * nblk` or above is outside the context: no run of any length from two states that differ in such bits
only can tell them apart, neither by a response nor later. -/
def Obligations.BitsOutsideTheContextsAreNeverObserved : Prop :=
  ∀ (n : Nat) (s t : State), s.Inv → t.Inv → SameVisible s t →
    ∃ s' t', Sys2Proof.core.run n s = .next s' ∧ Sys2Proof.core.run n t = .next t' ∧ SameVisible s' t'

/-- A command changes no context but the one its CTX names, and never the parameters or the host's further events. -/
def Obligations.CommandsChangeOnlyTheirOwnContext : Prop :=
  ∀ (i : Instr) (s : State), ∃ t, exec i s = .next t ∧ t.cfg = s.cfg ∧ t.inbox = s.inbox ∧
    t.ctxs.length = s.ctxs.length ∧ ∀ c, targetOf i ≠ some c → t.ctx c = s.ctx c

/-- Tag, width and count of a context are written by CREATE, COPY and reset alone. -/
def Obligations.OnlyCreateAndCopyConfigureContexts : Prop :=
  ∀ (i : Instr) (s t : State), configures i = false → exec i s = .next t →
    ∀ c, (t.ctx c).tag = (s.ctx c).tag ∧ (t.ctx c).isz = (s.ctx c).isz ∧ (t.ctx c).cnt = (s.ctx c).cnt

/-- A read command changes no state, no field of the fault record among it, unless it raises a fault; repeating a
non-faulting command leaves the state it left the first time. A command raises a fault when it takes `FAULT` from 0 to 1.
(The responses, which grow, are not the block's state: 10_state.md R33.) -/
def Obligations.ReadsChangeNothingAndRepeatsChangeNothingMore : Prop :=
  (∀ (i : Instr) (s t : State), isReadCommand i = true → exec i s = .next t →
    ¬ (s.record.fault = false ∧ t.record.fault = true) → SameBlock s t) ∧
  (∀ (i : Instr) (s t : State), s.Inv → exec i s = .next t → ¬ (s.record.fault = false ∧ t.record.fault = true) →
    ∃ u, exec i t = .next u ∧ SameBlock t u)

/-! ### Reset -/

/-- The state after reset, field by field, at every choice of the parameters; and the reference parameters. -/
def Obligations.ResetLeavesTheValuesOfTheSpec : Prop :=
  (∀ (cfg : Config) (c : CtxNum), ((State.resetWith cfg).ctx c).tag = .empty ∧
    ((State.resetWith cfg).ctx c).isz = 0 ∧ ((State.resetWith cfg).ctx c).cnt = 0 ∧
    (State.resetWith cfg).ctxs.length = cfg.nCtx ∧
    (State.resetWith cfg).record = { fault := false, fcode := 0x00, fcmd := 0x00000000, farg0 := 0, farg1 := 0 } ∧
    (State.resetWith cfg).faultOut = false) ∧
  State.reset = State.resetWith { W := 64, memBits := 65536, nCtx := 2, zeroWidthReject := false }

/-- The reset input, between commands or during one: every context EMPTY, the record zero, no response for the command
that was in progress. The responses delivered before and the host's further events stay (log 9). -/
def Obligations.ResetInputPutsTheBlockInItsResetState : Prop :=
  ∀ (s : State) (e : PortEvent) (es : List PortEvent), s.inbox = e :: es → (e = .reset ∨ ∃ r, e = .resetDuring r) →
    ∃ t, step s = .next t ∧ t.outbox = s.outbox ∧ t.inbox = es ∧ t.cfg = s.cfg ∧ t.ctxs.length = s.cfg.nCtx ∧
      (∀ c, (t.ctx c).tag = .empty ∧ (t.ctx c).isz = 0 ∧ (t.ctx c).cnt = 0) ∧
      t.record = { fault := false, fcode := 0, fcmd := 0, farg0 := 0, farg1 := 0 } ∧ t.faultOut = false

/-! ### Width derivation and addressing -/

/-- `bitsNeeded(v)` is `ceil(log2(v + 1))`, the number of binary digits of `v`. -/
def Obligations.BitsNeededIsTheNumberOfBinaryDigits : Prop :=
  bitsNeeded 0 = 0 ∧ (∀ v n : Nat, 1 ≤ v → (bitsNeeded v = n ↔ 2 ^ (n - 1) ≤ v ∧ v < 2 ^ n)) ∧
    (∀ v, bitsNeeded v = Nat.clog 2 (v + 1)) ∧ bitsNeeded (2 ^ 64 - 1) = 64

/-- The largest value of a width needs exactly that width, and every stored value is at most it. -/
def Obligations.MaxItemNeedsExactlyItsWidth : Prop :=
  (∀ s : Nat, maxItem s = 2 ^ s - 1 ∧ bitsNeeded (maxItem s) = s) ∧
    ∀ (x : Context) (i : Nat), x.item i ≤ 2 ^ x.isz.toNat - 1

/-- Item `i` starts at bit `i * isz`, inside the capacity and the storage; slots of width 0 start at 0. -/
def Obligations.SlotsLieInsideTheCapacity : Prop :=
  ∀ (cfg : Config) (x : Context) (i : Nat), x.Inv cfg → x.off i = i * x.isz.toNat ∧
    (i < x.cnt.toNat → x.off i + x.isz.toNat ≤ x.cap ∧ x.cap ≤ cfg.memBits) ∧ (x.isz = 0 → x.off i = 0) ∧
    (∀ j, (x.item i).testBit j = (decide (j < x.isz.toNat) && x.mem.get (x.off i + j)))

/-! ### CREATE -/

/-- CREATE that is not rejected: it answers OK, the context is configured with the derived width and the given count, every
bit of it is clear, and nothing else changes. -/
def Obligations.CreateConfiguresAndClearsTheContext : Prop :=
  ∀ (s : State) (c : CtxNum) (n m : Word), s.Inv → s.Ready c →
    ¬ (s.cfg.zeroWidthReject = true ∧ bitsNeeded m.toNat = 0) → bitsNeeded m.toNat < s.cfg.W →
    n.toNat * bitsNeeded m.toNat ≤ s.cfg.memBits →
    ∃ t, exec (.create c n m) s = .next t ∧ Answered s t 0x00 [] ∧
      (t.ctx c).tag = .configured ∧ (t.ctx c).isz.toNat = bitsNeeded m.toNat ∧ (t.ctx c).cnt = n ∧
      (∀ b, t.bit c b = false) ∧ (∀ c', c' ≠ c → t.ctx c' = s.ctx c') ∧
      t.record = s.record ∧ t.cfg = s.cfg ∧ t.inbox = s.inbox

/-- CREATE that is rejected, in the order of 60_exceptions.md R146: zero width where the parameter rejects it, then width,
then capacity. It answers the error and nothing changes, no flag and no record among it. -/
def Obligations.ConfigurationErrorsChangeNothing : Prop :=
  ∀ (s : State) (c : CtxNum) (n m : Word), s.cfg.Legal → s.Ready c →
    (s.cfg.zeroWidthReject = true ∧ m = 0 → exec (.create c n m) s = .next (s.answeredWith 0x03 [])) ∧
    (s.cfg.W ≤ bitsNeeded m.toNat → exec (.create c n m) s = .next (s.answeredWith 0x01 [])) ∧
    (¬ (s.cfg.zeroWidthReject = true ∧ m = 0) ∧ bitsNeeded m.toNat < s.cfg.W ∧
        s.cfg.memBits < n.toNat * bitsNeeded m.toNat →
      exec (.create c n m) s = .next (s.answeredWith 0x02 []))

/-! ### SETITEM, GETITEM, GETITEMS -/

/-- SETITEM of a value that fits: bit `j` of the value goes to bit address `i * isz + j`, and no other bit of any context,
no configuration and no record changes. -/
def Obligations.SetitemWritesExactlyItsSlot : Prop :=
  ∀ (s : State) (c : CtxNum) (i v : Word), s.Inv → s.Ready c → i.toNat < (s.ctx c).cnt.toNat →
    v.toNat ≤ 2 ^ (s.ctx c).isz.toNat - 1 →
    ∃ t, exec (.setitem c i v) s = .next t ∧ Answered s t 0x00 [] ∧ OnlyStorageDiffers s t ∧
      ∀ c' b, t.bit c' b =
        if c' = c ∧ (s.ctx c).off i.toNat ≤ b ∧ b < (s.ctx c).off i.toNat + (s.ctx c).isz.toNat
        then v.getLsbD (b - (s.ctx c).off i.toNat) else s.bit c' b

/-- SETITEM and GETITEM out of range: the index is checked before the value, and a fault writes the record alone. -/
def Obligations.ItemCommandsFaultOnIndexThenValue : Prop :=
  ∀ (s : State) (c : CtxNum) (i v : Word), s.Ready c →
    ((s.ctx c).cnt.toNat ≤ i.toNat →
      exec (.setitem c i v) s = .next (s.faultedWith 0x42 (encode (.setitem c i v))) ∧
      exec (.getitem c i v) s = .next (s.faultedWith 0x42 (encode (.getitem c i v)))) ∧
    (i.toNat < (s.ctx c).cnt.toNat → 2 ^ (s.ctx c).isz.toNat - 1 < v.toNat →
      exec (.setitem c i v) s = .next (s.faultedWith 0x43 (encode (.setitem c i v))))

/-- GETITEM in range: it answers the value whose bit `j` is the bit at `i * isz + j`, below `2^isz`, and changes nothing. -/
def Obligations.GetitemReadsItsSlot : Prop :=
  ∀ (s : State) (c : CtxNum) (i a : Word), s.Ready c → i.toNat < (s.ctx c).cnt.toNat →
    ∃ w : Word, exec (.getitem c i a) s = .next (s.answeredWith 0x00 [w]) ∧ w.toNat < 2 ^ (s.ctx c).isz.toNat ∧
      ∀ j, w.getLsbD j = (decide (j < (s.ctx c).isz.toNat) && s.bit c (i.toNat * (s.ctx c).isz.toNat + j))

/-- SETITEM then GETITEM of the same item gives the value; GETITEM of every other item answers as before. -/
def Obligations.ItemsRoundTripAndAreIndependent : Prop :=
  ∀ (s : State) (c : CtxNum) (i v : Word), s.Inv → s.Ready c → i.toNat < (s.ctx c).cnt.toNat →
    v.toNat ≤ 2 ^ (s.ctx c).isz.toNat - 1 →
    ∃ t, exec (.setitem c i v) s = .next t ∧
      (∀ a, exec (.getitem c i a) t = .next (t.answeredWith 0x00 [v])) ∧
      ∀ j a, j ≠ i → SameAnswer (.getitem c j a) s t

/-- GETITEMS answers `cnt` words, word `k` being what GETITEM of `k` answers in the same state, and changes nothing. -/
def Obligations.GetitemsListsEveryItemInOrder : Prop :=
  ∀ (s : State) (c : CtxNum) (a b : Word), s.Ready c →
    ∃ data, exec (.getitems c a b) s = .next (s.answeredWith 0x00 data) ∧ data.length = (s.ctx c).cnt.toNat ∧
      ∀ k : Word, k.toNat < (s.ctx c).cnt.toNat →
        ∃ w, data[k.toNat]? = some w ∧ exec (.getitem c k 0) s = .next (s.answeredWith 0x00 [w])

/-! ### COPY and INFO -/

/-- COPY: the destination becomes all that the source was, tag, width, count and every bit; nothing else changes, and
copying a context onto itself changes no context. -/
def Obligations.CopyDuplicatesTheSourceContext : Prop :=
  ∀ (s : State) (d c : CtxNum) (a b : Word), s.Inv → s.Ready d → c.toNat < s.cfg.nCtx →
    ∃ t, exec (.copy d c a b) s = .next t ∧ Answered s t 0x00 [] ∧
      (t.ctx d).tag = (s.ctx c).tag ∧ (t.ctx d).isz = (s.ctx c).isz ∧ (t.ctx d).cnt = (s.ctx c).cnt ∧
      (∀ p, t.bit d p = s.bit c p) ∧ (∀ c', c' ≠ d → t.ctx c' = s.ctx c') ∧ (d = c → t.ctxs = s.ctxs) ∧
      t.record = s.record ∧ t.cfg = s.cfg ∧ t.inbox = s.inbox

/-- Deep-copy isolation: after a copy between two contexts, no SETITEM, BSET, BCLR, WRBLK or CREATE on the one that does
not fault changes what a GETITEM on the other answers. -/
def Obligations.CopiesAreIsolatedFromEachOther : Prop :=
  ∀ (s t u : State) (A B X Y : CtxNum) (a b : Word) (w : Instr), s.Inv → s.Ready A → B.toNat < s.cfg.nCtx → A ≠ B →
    exec (.copy B A a b) s = .next t → (X = A ∧ Y = B ∨ X = B ∧ Y = A) →
    (∃ p q, w = .setitem Y p q ∨ w = .bset Y p q ∨ w = .bclr Y p q ∨ w = .wrblk Y p q ∨ w = .create Y p q) →
    exec w t = .next u → u.record = t.record → ∀ j p, SameAnswer (.getitem X j p) t u

/-- INFO answers tag, width and count, and changes nothing; an EMPTY context answers zeros. -/
def Obligations.InfoReadsTheConfiguration : Prop :=
  ∀ (s : State) (c : CtxNum) (a b : Word), s.Ready c →
    exec (.info c a b) s = .next (s.answeredWith 0x00
      [if (s.ctx c).tag = .configured then 1 else 0, BitVec.ofNat 64 (s.ctx c).isz.toNat, (s.ctx c).cnt]) ∧
    (s.Inv → (s.ctx c).tag = .empty → exec (.info c a b) s = .next (s.answeredWith 0x00 [0, 0, 0]))

/-! ### Bit commands -/

/-- BSET and BCLR below the capacity: exactly that bit of that context becomes 1 or 0. -/
def Obligations.BsetAndBclrWriteExactlyOneBit : Prop :=
  ∀ (s : State) (c : CtxNum) (p a : Word), s.Inv → s.Ready c →
    p.toNat < (s.ctx c).cnt.toNat * (s.ctx c).isz.toNat →
    (∃ t, exec (.bset c p a) s = .next t ∧ Answered s t 0x00 [] ∧ OnlyStorageDiffers s t ∧
      ∀ c' b, t.bit c' b = if c' = c ∧ b = p.toNat then true else s.bit c' b) ∧
    (∃ t, exec (.bclr c p a) s = .next t ∧ Answered s t 0x00 [] ∧ OnlyStorageDiffers s t ∧
      ∀ c' b, t.bit c' b = if c' = c ∧ b = p.toNat then false else s.bit c' b)

/-- A bit index at or above the capacity `cnt * isz` faults in BSET, BCLR and BTEST and changes no storage bit; the
capacity is not rounded up to a block. -/
def Obligations.BitIndexesAtOrAboveTheCapacityFault : Prop :=
  ∀ (s : State) (c : CtxNum) (p a : Word), s.Ready c → (s.ctx c).cnt.toNat * (s.ctx c).isz.toNat ≤ p.toNat →
    exec (.bset c p a) s = .next (s.faultedWith 0x44 (encode (.bset c p a))) ∧
    exec (.bclr c p a) s = .next (s.faultedWith 0x44 (encode (.bclr c p a))) ∧
    exec (.btest c p a) s = .next (s.faultedWith 0x44 (encode (.btest c p a)))

/-- Bit address `p` is bit `p mod isz` of item `p div isz`: writing it changes that bit of that item's value and no other
item. -/
def Obligations.WritingABitChangesOneBitOfOneItem : Prop :=
  ∀ (s : State) (c : CtxNum) (p a : Word), s.Inv → s.Ready c → (s.ctx c).isz ≠ 0 → p.toNat < (s.ctx c).cap →
    p.toNat / (s.ctx c).isz.toNat < (s.ctx c).cnt.toNat ∧
    ∀ x : Bool, ∃ t, exec (if x then .bset c p a else .bclr c p a) s = .next t ∧
      BitVec.ofNat 64 ((t.ctx c).item (p.toNat / (s.ctx c).isz.toNat)) =
        (BitVec.ofNat 64 ((s.ctx c).item (p.toNat / (s.ctx c).isz.toNat)) &&&
          ~~~ (1#64 <<< (p.toNat % (s.ctx c).isz.toNat))) |||
        ((if x then 1#64 else 0#64) <<< (p.toNat % (s.ctx c).isz.toNat)) ∧
      ∀ i, i ≠ p.toNat / (s.ctx c).isz.toNat → (t.ctx c).item i = (s.ctx c).item i

/-- BTEST below the capacity answers the word 1 or 0 for the bit and changes nothing. -/
def Obligations.BtestAnswersTheBit : Prop :=
  ∀ (s : State) (c : CtxNum) (p a : Word), s.Ready c → p.toNat < (s.ctx c).cnt.toNat * (s.ctx c).isz.toNat →
    exec (.btest c p a) s = .next (s.answeredWith 0x00 [if s.bit c p.toNat = true then 1 else 0])

/-- BTEST of `p` changes nothing and answers bit `p mod isz` of what GETITEM of item `p div isz` answers. -/
def Obligations.BtestIsABitOfGetitem : Prop :=
  ∀ (s : State) (c : CtxNum) (p q a : Word), s.Ready c → (s.ctx c).isz ≠ 0 → p.toNat < (s.ctx c).cap →
    q.toNat = p.toNat / (s.ctx c).isz.toNat →
    ∃ w : Word, exec (.getitem c q a) s = .next (s.answeredWith 0x00 [w]) ∧
      exec (.btest c p a) s = .next (s.answeredWith 0x00 [if w.getLsbD (p.toNat % (s.ctx c).isz.toNat) then 1 else 0])

/-! ### Block commands -/

/-- RDBLK below the block count answers the word whose bit `p` is the bit at `64k + p` and changes nothing; bits at and
above the capacity read 0. -/
def Obligations.RdblkReadsTheBlock : Prop :=
  ∀ (s : State) (c : CtxNum) (k a : Word), s.Inv → s.Ready c → k.toNat < (s.ctx c).nblk →
    ∃ w : Word, exec (.rdblk c k a) s = .next (s.answeredWith 0x00 [w]) ∧
      ∀ p < 64, w.getLsbD p = (decide (64 * k.toNat + p < (s.ctx c).cap) && s.bit c (64 * k.toNat + p))

/-- WRBLK below the block count: bit `p` of the data goes to `64k + p` where that is below the capacity; no other bit of
any context, no configuration and no record changes. -/
def Obligations.WrblkWritesTheAddressableBitsOfTheBlock : Prop :=
  ∀ (s : State) (c : CtxNum) (k v : Word), s.Inv → s.Ready c → k.toNat < (s.ctx c).nblk →
    ∃ t, exec (.wrblk c k v) s = .next t ∧ Answered s t 0x00 [] ∧ OnlyStorageDiffers s t ∧
      ∀ c' b, t.bit c' b =
        if c' = c ∧ 64 * k.toNat ≤ b ∧ b < 64 * k.toNat + 64 ∧ b < (s.ctx c).cap
        then v.getLsbD (b - 64 * k.toNat) else s.bit c' b

/-- A block index at or above `ceil(cnt * isz / 64)` faults in RDBLK and WRBLK. -/
def Obligations.BlockIndexesAtOrAboveTheCountFault : Prop :=
  ∀ (s : State) (c : CtxNum) (k v : Word), s.Ready c →
    (s.ctx c).cnt.toNat * (s.ctx c).isz.toNat ≤ 64 * k.toNat →
    exec (.rdblk c k v) s = .next (s.faultedWith 0x45 (encode (.rdblk c k v))) ∧
    exec (.wrblk c k v) s = .next (s.faultedWith 0x45 (encode (.wrblk c k v)))

/-- The mask of a block's addressable bits, what RDBLK can answer under it, and how an item that crosses a block boundary
lies in the two blocks. -/
def Obligations.BlocksAndItemsMeetAsTheSpecSays : Prop :=
  (∀ (x : Context) (k p : Nat), p < 64 → (validMask x.cap k).getLsbD p = decide (64 * k + p < x.cap)) ∧
  (∀ (x : Context) (k : Nat), k + 1 < x.nblk → validMask x.cap k = BitVec.ofNat 64 (2 ^ 64 - 1)) ∧
  (∀ (x : Context) (k : Nat), k + 1 = x.nblk → validMask x.cap k = BitVec.ofNat 64 (2 ^ (x.cap - 64 * k) - 1)) ∧
  (∀ (s : State) (c : CtxNum) (k a : Word), s.Inv → s.Ready c → k.toNat < (s.ctx c).nblk →
    ∃ w : Word, exec (.rdblk c k a) s = .next (s.answeredWith 0x00 [w]) ∧ w &&& ~~~ validMask (s.ctx c).cap k.toNat = 0) ∧
  (∀ (x : Context) (i k j : Nat), j < x.isz.toNat → x.off i < 64 * (k + 1) → 64 * (k + 1) < x.off i + x.isz.toNat →
    (x.item i).testBit j =
      if x.off i + j < 64 * (k + 1) then (blockRead x.mem k).getLsbD (x.off i + j - 64 * k)
      else (blockRead x.mem (k + 1)).getLsbD (x.off i + j - 64 * (k + 1)))

/-- After WRBLK of `v`, RDBLK of the same block answers `v AND valid`. -/
def Obligations.RdblkAfterWrblkGivesTheValidBits : Prop :=
  ∀ (s : State) (c : CtxNum) (k v a : Word), s.Inv → s.Ready c → k.toNat < (s.ctx c).nblk →
    ∃ t, exec (.wrblk c k v) s = .next t ∧
      exec (.rdblk c k a) t = .next (t.answeredWith 0x00 [v &&& validMask (s.ctx c).cap k.toNat])

/-- Writing back the word that RDBLK answered leaves every context as it was. -/
def Obligations.WritingBackABlockChangesNothing : Prop :=
  ∀ (s : State) (c : CtxNum) (k a : Word), s.Inv → s.Ready c → k.toNat < (s.ctx c).nblk →
    ∃ w t, exec (.rdblk c k a) s = .next (s.answeredWith 0x00 [w]) ∧ exec (.wrblk c k w) s = .next t ∧ SameBlock s t

/-! ### FINFO and the absent state -/

/-- FINFO answers the fault record whether or not a fault is recorded, and changes nothing; with none it answers zeros. -/
def Obligations.FinfoReadsTheFaultRecord : Prop :=
  ∀ (s : State) (a b : Word),
    exec (.finfo a b) s = .next (s.answeredWith 0x00
      [if s.record.fault = true then 1 else 0, BitVec.ofNat 64 s.record.fcode.toNat,
        BitVec.ofNat 64 s.record.fcmd.toNat, s.record.farg0, s.record.farg1]) ∧
    (s.Inv → s.record.fault = false → exec (.finfo a b) s = .next (s.answeredWith 0x00 [0, 0, 0, 0, 0]))

/-- On an EMPTY context the item, bit and block commands fault, and GETITEMS, INFO, COPY and FINFO succeed. -/
def Obligations.EmptyContextsFaultUntilCreated : Prop :=
  ∀ (s : State) (c d : CtxNum) (a b : Word), s.Inv → s.Ready c → (s.ctx c).tag = .empty → d.toNat < s.cfg.nCtx →
    exec (.setitem c a b) s = .next (s.faultedWith 0x42 (encode (.setitem c a b))) ∧
    exec (.getitem c a b) s = .next (s.faultedWith 0x42 (encode (.getitem c a b))) ∧
    exec (.bset c a b) s = .next (s.faultedWith 0x44 (encode (.bset c a b))) ∧
    exec (.bclr c a b) s = .next (s.faultedWith 0x44 (encode (.bclr c a b))) ∧
    exec (.btest c a b) s = .next (s.faultedWith 0x44 (encode (.btest c a b))) ∧
    exec (.rdblk c a b) s = .next (s.faultedWith 0x45 (encode (.rdblk c a b))) ∧
    exec (.wrblk c a b) s = .next (s.faultedWith 0x45 (encode (.wrblk c a b))) ∧
    exec (.getitems c a b) s = .next (s.answeredWith 0x00 []) ∧
    exec (.info c a b) s = .next (s.answeredWith 0x00 [0, 0, 0]) ∧
    (∃ t, exec (.copy d c a b) s = .next t ∧ Answered s t 0x00 [] ∧
      (t.ctx d).tag = .empty ∧ (t.ctx d).isz = 0 ∧ (t.ctx d).cnt = 0) ∧
    (∃ data, exec (.finfo a b) s = .next (s.answeredWith 0x00 data))

/-! ### The host's pseudo-instructions and restore -/

/-- `createw cN, n, z` makes a context of width exactly `z`, and `bwrite` is BSET for 1, BCLR for 0 and nothing else. -/
def Obligations.PseudoInstructionsDoAsTheSpecSays : Prop :=
  (∀ (s : State) (c : CtxNum) (n : Word) (z : Nat), s.Inv → s.Ready c → z < s.cfg.W →
    ¬ (s.cfg.zeroWidthReject = true ∧ z = 0) → n.toNat * z ≤ s.cfg.memBits →
    ∃ i t, createw c n z = some i ∧ exec i s = .next t ∧ Answered s t 0x00 [] ∧ (t.ctx c).isz.toNat = z ∧
      (t.ctx c).cnt = n) ∧
  (∀ (c : CtxNum) (n : Word) (z : Nat), (z ≤ 63 → createw c n z = some (.create c n (BitVec.ofNat 64 (2 ^ z - 1)))) ∧
    (63 < z → createw c n z = none)) ∧
  (∀ (c : CtxNum) (p : Word), bwrite c p 1 = some (.bset c p 0) ∧ bwrite c p 0 = some (.bclr c p 0) ∧
    ∀ v, 1 < v → bwrite c p v = none)

/-- A CONFIGURED context saved as its width, count and blocks is rebuilt by CREATE with `2^isz - 1` (`createw`) and a WRBLK
of every block, in any context of any state with the same parameters and no fault: same tag, width, count and storage
bits. Nothing else changes, and every command of the sequence answers OK. A CREATE never gives an EMPTY context. The clause about
`x.save.restore` is about the model's own host layout (41_compact_array.md R113; log 18, DEDUCED). -/
def Obligations.RestoreRebuildsTheSavedContext : Prop :=
  ∀ (s : State) (x : Context) (d : CtxNum) (es : List PortEvent), s.Inv → s.Ready d → x.Inv s.cfg →
    x.tag = .configured →
    s.inbox = requestsOf (.create d x.cnt (BitVec.ofNat 64 (2 ^ x.isz.toNat - 1)) ::
      (List.range x.nblk).map fun k => .wrblk d (BitVec.ofNat 64 k) (blockRead x.mem k)) ++ es →
    (∃ t, Sys2Proof.core.run (x.nblk + 1) s = .next t ∧ t.inbox = es ∧ t.record = s.record ∧ t.cfg = s.cfg ∧
      t.outbox = s.outbox ++ List.replicate (x.nblk + 1) { status := 0x00, data := [] } ∧
      (t.ctx d).tag = x.tag ∧ (t.ctx d).isz = x.isz ∧ (t.ctx d).cnt = x.cnt ∧
      (∀ b < 64 * x.nblk, t.bit d b = x.mem.get b) ∧ ∀ c', c' ≠ d → t.ctx c' = s.ctx c') ∧
    x.save.restore d = .create d x.cnt (BitVec.ofNat 64 (2 ^ x.isz.toNat - 1)) ::
      ((List.range x.nblk).map fun k => .wrblk d (BitVec.ofNat 64 k) (blockRead x.mem k)) ∧
    ∀ n m u, exec (.create d n m) s = .next u → u.ctxs = s.ctxs ∨ (u.ctx d).tag = .configured
end

