-- ==== Sys2Proof/Laws/Decode.lean ====
section
/-! SUPPORT. The fields of an encoded word, and the words a row of the encoding table accepts. -/

namespace Sys2Proof

theorem cmdWord_bit (o : BitVec 8) (c s : CtxNum) (i : Nat) :
    (cmdWord o c s).getLsbD i =
      if i < 8 then o.getLsbD i else if i - 8 < 4 then c.getLsbD (i - 8) else s.getLsbD (i - 12) := by
  have h : (cmdWord o c s).getLsbD i = BitVec.getLsbD (0#16 ++ s ++ c ++ o) i := rfl
  rw [h, BitVec.getLsbD_append, BitVec.getLsbD_append, BitVec.getLsbD_append]
  have h12 : i - 8 - 4 = i - 12 := by omega
  simp only [h12, BitVec.getLsbD_zero]
  by_cases hs : i - 12 < 4
  · simp [hs]
  · simp [hs, BitVec.getLsbD_of_ge s (i - 12) (by omega)]

@[simp] theorem opcField_cmdWord (o : BitVec 8) (c s : CtxNum) : opcField (cmdWord o c s) = o := by
  refine BitVec.eq_of_getLsbD_eq fun i hi => ?_
  simp [opcField, cmdWord_bit, hi]

@[simp] theorem ctxField_cmdWord (o : BitVec 8) (c s : CtxNum) : ctxField (cmdWord o c s) = c := by
  refine BitVec.eq_of_getLsbD_eq fun i hi => ?_
  simp [ctxField, cmdWord_bit, hi]

@[simp] theorem srcField_cmdWord (o : BitVec 8) (c s : CtxNum) : srcField (cmdWord o c s) = s := by
  refine BitVec.eq_of_getLsbD_eq fun i hi => ?_
  have h1 : ¬ 12 + i < 8 := by omega
  have h2 : ¬ 12 + i - 8 < 4 := by omega
  simp [srcField, cmdWord_bit, hi, h1, h2]

@[simp] theorem rsvdField_cmdWord (o : BitVec 8) (c s : CtxNum) : rsvdField (cmdWord o c s) = 0 := by
  refine BitVec.eq_of_getLsbD_eq fun i hi => ?_
  have h1 : ¬ 16 + i < 8 := by omega
  have h2 : ¬ 16 + i - 8 < 4 := by omega
  have h3 : s.getLsbD (16 + i - 12) = false := BitVec.getLsbD_of_ge s _ (by omega)
  simp [rsvdField, cmdWord_bit, h1, h2, h3]

/-- A word is put together from its four fields (30_encoding.md R61). -/
theorem fields_append (w : CmdWord) : rsvdField w ++ srcField w ++ ctxField w ++ opcField w = w := by
  refine BitVec.eq_of_getLsbD_eq fun i hi => ?_
  simp only [rsvdField, srcField, ctxField, opcField, BitVec.getLsbD_append, BitVec.getLsbD_extractLsb']
  by_cases h1 : i < 8
  · simp [h1]
  by_cases h2 : i - 8 < 4
  · have : 8 + (i - 8) = i := by omega
    simp [h1, h2, this]
  by_cases h3 : i - 8 - 4 < 4
  · have : 12 + (i - 8 - 4) = i := by omega
    simp [h1, h2, h3, this]
  · have h4 : i - 8 - 4 - 4 < 16 := by omega
    have : 16 + (i - 8 - 4 - 4) = i := by omega
    simp [h1, h2, h3, h4, this]

/-- A word whose reserved bits are zero is the word of its other fields. -/
theorem cmdWord_fields {w : CmdWord} (h : rsvdField w = 0) : cmdWord (opcField w) (ctxField w) (srcField w) = w := by
  have := fields_append w
  rwa [h] at this

/-- Two words with the same fields are the same word. -/
theorem eq_of_fields {w v : CmdWord} (h1 : opcField w = opcField v) (h2 : ctxField w = ctxField v)
    (h3 : srcField w = srcField v) (h4 : rsvdField w = rsvdField v) : w = v := by
  rw [← fields_append w, ← fields_append v, h1, h2, h3, h4]

/-- What a command that uses CTX only decodes to. -/
theorem decodeCtxOnly_ok {r : Request} {k : CtxNum → Word → Word → Instr} {i : Instr} :
    decodeCtxOnly r k = .ok i ↔ srcField r.cmd = 0 ∧ i = k (ctxField r.cmd) r.arg0 r.arg1 := by
  unfold decodeCtxOnly
  split <;> simp_all [eq_comm]

/-- What FINFO's opcode decodes to. -/
theorem decodeFinfo_ok {r : Request} {i : Instr} :
    decodeFinfo r = .ok i ↔ srcField r.cmd = 0 ∧ ctxField r.cmd = 0 ∧ i = .finfo r.arg0 r.arg1 := by
  unfold decodeFinfo
  split
  · simp_all
  · split <;> simp_all [eq_comm]

/-- Only FINFO is presented as FINFO's word (42_status.md R130). -/
theorem encode_cmd_eq_finfoWord_iff (i : Instr) : (encode i).cmd = finfoWord ↔ ∃ a b, i = .finfo a b := by
  constructor
  · intro h
    have hopc := congrArg opcField h
    cases i with
    | finfo a b => exact ⟨a, b, rfl⟩
    | create | setitem | getitem | getitems | copy | info | bset | bclr | btest | rdblk | wrblk =>
      simp only [encode, opcField_cmdWord] at hopc
      exact absurd hopc (by decide)
  · rintro ⟨a, b, rfl⟩
    show cmdWord 0x0F 0 0 = finfoWord
    decide

end Sys2Proof
end

