-- ==== Sys2Proof/Laws/Memory.lean ====
section
/-! SUPPORT. The laws of the storage operations: read after write, what a write leaves alone, and that every operation
keeps the canonical form. -/

namespace Sys2Proof.Machine

/-! ### Cells -/

theorem lookupCell_below (cells : List (Nat × Bool)) (a : Nat) (h : ∀ e ∈ cells, a < e.1) :
    lookupCell cells a = Memory.unlisted := by
  induction cells with
  | nil => rfl
  | cons e rest ih =>
    have he : a < e.1 := h e (by simp)
    have hne : e.1 ≠ a := by omega
    simp only [lookupCell, if_neg hne]
    exact ih fun x hx => h x (List.mem_cons_of_mem e hx)

theorem lookupCell_storeCell_other (cells : List (Nat × Bool)) {a b : Nat} (v : Bool) (h : b ≠ a) :
    lookupCell (storeCell cells a v) b = lookupCell cells b := by
  induction cells with
  | nil =>
    have hab : a ≠ b := h.symm
    by_cases hv : v = Memory.unlisted <;> simp [storeCell, lookupCell, hv, hab]
  | cons e rest ih =>
    have hab : a ≠ b := h.symm
    simp only [storeCell]
    split
    · split <;> simp [lookupCell, hab]
    · split
      · next _ heq =>
        have : e.1 ≠ b := by omega
        split <;> simp [lookupCell, hab, this]
      · simp only [lookupCell, ih]

theorem lookupCell_storeCell_same (cells : List (Nat × Bool)) (a : Nat) (v : Bool)
    (h : cells.Pairwise fun x y => x.1 < y.1) : lookupCell (storeCell cells a v) a = v := by
  induction cells with
  | nil => by_cases hv : v = Memory.unlisted <;> simp [storeCell, lookupCell, hv]
  | cons e rest ih =>
    obtain ⟨hhead, htail⟩ := List.pairwise_cons.mp h
    simp only [storeCell]
    split
    · next hlt =>
      split
      · next hv =>
        rw [hv]
        refine lookupCell_below _ a fun x hx => ?_
        rcases List.mem_cons.mp hx with rfl | hx
        · exact hlt
        · exact hlt.trans (hhead x hx)
      · simp [lookupCell]
    · split
      · next heq =>
        split
        · next hv =>
          rw [hv]
          exact lookupCell_below _ a fun x hx => heq ▸ hhead x hx
        · simp [lookupCell]
      · next hne =>
        have : e.1 ≠ a := fun he => hne he.symm
        simp only [lookupCell, if_neg this]
        exact ih htail

theorem mem_storeCell {cells : List (Nat × Bool)} {a : Nat} {v : Bool} {e : Nat × Bool}
    (h : e ∈ storeCell cells a v) : e ∈ cells ∨ (e = (a, v) ∧ v ≠ Memory.unlisted) := by
  induction cells with
  | nil =>
    simp only [storeCell] at h
    split at h
    · exact .inl h
    · exact .inr ⟨by simpa using h, ‹_›⟩
  | cons x rest ih =>
    simp only [storeCell] at h
    split at h
    · split at h
      · exact .inl h
      · rcases List.mem_cons.mp h with h | h
        · exact .inr ⟨h, ‹_›⟩
        · exact .inl h
    · split at h
      · split at h
        · exact .inl (List.mem_cons_of_mem x h)
        · rcases List.mem_cons.mp h with h | h
          · exact .inr ⟨h, ‹_›⟩
          · exact .inl (List.mem_cons_of_mem x h)
      · rcases List.mem_cons.mp h with h | h
        · exact .inl (h ▸ List.mem_cons_self)
        · exact (ih h).imp (List.mem_cons_of_mem x) id

theorem storeCell_sorted (cells : List (Nat × Bool)) (a : Nat) (v : Bool)
    (h : cells.Pairwise fun x y => x.1 < y.1) : (storeCell cells a v).Pairwise fun x y => x.1 < y.1 := by
  induction cells with
  | nil =>
    simp only [storeCell]
    split <;> simp
  | cons e rest ih =>
    obtain ⟨hhead, htail⟩ := List.pairwise_cons.mp h
    simp only [storeCell]
    split
    · next hlt =>
      split
      · exact h
      · refine List.pairwise_cons.mpr ⟨fun x hx => ?_, h⟩
        rcases List.mem_cons.mp hx with rfl | hx
        · exact hlt
        · exact hlt.trans (hhead x hx)
    · split
      · next heq =>
        split
        · exact htail
        · exact List.pairwise_cons.mpr ⟨fun x hx => heq ▸ hhead x hx, htail⟩
      · next hge hne =>
        refine List.pairwise_cons.mpr ⟨fun x hx => ?_, ih htail⟩
        rcases mem_storeCell hx with hx | ⟨rfl, -⟩
        · exact hhead x hx
        · show e.1 < a
          omega

/-! ### One bit -/

theorem Memory.get_set_same (m : Memory) (hm : m.wf) (a : Nat) (v : Bool) : (m.set a v).get a = v :=
  lookupCell_storeCell_same m.cells a v hm.1

theorem Memory.get_set_other (m : Memory) {a b : Nat} (v : Bool) (h : b ≠ a) : (m.set a v).get b = m.get b :=
  lookupCell_storeCell_other m.cells v h

theorem Memory.get_set (m : Memory) (hm : m.wf) (a : Nat) (v : Bool) (b : Nat) :
    (m.set a v).get b = if b = a then v else m.get b := by
  split
  · next h => rw [h, m.get_set_same hm]
  · next h => exact m.get_set_other v h

theorem Memory.set_wf (m : Memory) (hm : m.wf) (a : Nat) (v : Bool) : (m.set a v).wf := by
  refine ⟨storeCell_sorted m.cells a v hm.1, fun e he => ?_⟩
  rcases mem_storeCell he with he | ⟨rfl, hv⟩
  · exact hm.2 e he
  · exact hv

theorem Memory.set_below {m : Memory} {bound a : Nat} (v : Bool) (hm : ∀ e ∈ m.cells, e.1 < bound) (ha : a < bound) :
    ∀ e ∈ (m.set a v).cells, e.1 < bound := by
  intro e he
  rcases mem_storeCell he with he | ⟨rfl, -⟩
  · exact hm e he
  · exact ha

@[simp] theorem Memory.clear_get (a : Nat) : Memory.clear.get a = false := rfl

theorem Memory.clear_wf : Memory.clear.wf := by decide

/-- A list of cells lists an address exactly when it reads there as something else than an unlisted address does. -/
theorem lookupCell_ne_unlisted {cells : List (Nat × Bool)} {a : Nat} (h : lookupCell cells a ≠ Memory.unlisted) :
    (a, lookupCell cells a) ∈ cells := by
  induction cells with
  | nil => exact absurd rfl h
  | cons e rest ih =>
    simp only [lookupCell] at h ⊢
    split
    · next he => simp [← he]
    · next he =>
      rw [if_neg he] at h
      exact List.mem_cons_of_mem e (ih h)

/-- Two canonical memories that read alike are the same memory. -/
theorem Memory.ext_get {m m' : Memory} (hm : m.wf) (hm' : m'.wf) (h : ∀ a, m.get a = m'.get a) : m = m' := by
  obtain ⟨cells⟩ := m
  obtain ⟨cells'⟩ := m'
  congr 1
  replace h : ∀ a, lookupCell cells a = lookupCell cells' a := h
  induction cells generalizing cells' with
  | nil =>
    cases cells' with
    | nil => rfl
    | cons e rest =>
      have := h e.1
      simp only [lookupCell, if_true] at this
      exact absurd this.symm (hm'.2 e (by simp))
  | cons e rest ih =>
    cases cells' with
    | nil =>
      have := h e.1
      simp only [lookupCell, if_true] at this
      exact absurd this (hm.2 e (by simp))
    | cons e' rest' =>
      obtain ⟨hs, hn⟩ := hm
      obtain ⟨hs', hn'⟩ := hm'
      simp only [List.pairwise_cons] at hs hs'
      have hkey : e.1 = e'.1 := by
        rcases lt_trichotomy e.1 e'.1 with hlt | heq | hlt
        · have h1 := h e.1
          have h2 : lookupCell (e' :: rest') e.1 = Memory.unlisted :=
            lookupCell_below _ _ fun x hx => (List.mem_cons.mp hx).elim (fun he => he ▸ hlt) fun hx => hlt.trans (hs'.1 x hx)
          rw [h2] at h1
          simp only [lookupCell, if_true] at h1
          exact absurd h1 (hn e (by simp))
        · exact heq
        · have h1 := h e'.1
          have h2 : lookupCell (e :: rest) e'.1 = Memory.unlisted :=
            lookupCell_below _ _ fun x hx => (List.mem_cons.mp hx).elim (fun he => he ▸ hlt) fun hx => hlt.trans (hs.1 x hx)
          rw [h2] at h1
          simp only [lookupCell, if_true] at h1
          exact absurd h1.symm (hn' e' (by simp))
      have hval : e.2 = e'.2 := by
        have := h e.1
        simpa [lookupCell, hkey] using this
      have hrest : rest = rest' := by
        refine ih ⟨hs.2, fun x hx => hn x (List.mem_cons_of_mem _ hx)⟩ rest'
          ⟨hs'.2, fun x hx => hn' x (List.mem_cons_of_mem _ hx)⟩ fun a => ?_
        by_cases ha : a = e.1
        · rw [ha, lookupCell_below rest _ hs.1, hkey, lookupCell_below rest' _ hs'.1]
        · have h1 : e.1 ≠ a := fun he => ha he.symm
          have h2 : e'.1 ≠ a := hkey ▸ h1
          have := h a
          simpa only [lookupCell, if_neg h1, if_neg h2] using this
      rw [Prod.ext hkey hval, hrest]

/-- Writing a bit a second time changes nothing more. -/
theorem Memory.set_set_same (m : Memory) (hm : m.wf) (a : Nat) (v : Bool) : (m.set a v).set a v = m.set a v := by
  refine Memory.ext_get ((m.set a v).set_wf (m.set_wf hm a v) a v) (m.set_wf hm a v) fun b => ?_
  rw [(m.set a v).get_set (m.set_wf hm a v)]
  split
  · next h => rw [h, m.get_set_same hm]
  · rfl

/-! ### Fields -/

/-- `memRead` is a number of `n` bits, and its bit `j` is the bit at address `a + j` (20_memory.md R42, R44). -/
theorem memRead_spec (m : Memory) (a n : Nat) :
    memRead m a n < 2 ^ n ∧ ∀ j, (memRead m a n).testBit j = (decide (j < n) && m.get (a + j)) := by
  induction n with
  | zero => simp [memRead]
  | succ n ih =>
    obtain ⟨hlt, hbit⟩ := ih
    have hb : (m.get (a + n)).toNat < 2 := Bool.toNat_lt _
    have hval : memRead m a (n + 1) = 2 ^ n * (m.get (a + n)).toNat + memRead m a n := by
      simp only [memRead]
      ring
    refine ⟨?_, fun j => ?_⟩
    · rw [hval, pow_succ]
      have : 2 ^ n * (m.get (a + n)).toNat ≤ 2 ^ n * 1 := Nat.mul_le_mul_left _ (by omega)
      omega
    · rw [hval, Nat.testBit_two_pow_mul_add _ hlt]
      split
      · next h => rw [hbit j]; simp [h, Nat.lt_succ_of_lt h]
      · next h =>
        rcases Nat.eq_or_lt_of_le (Nat.le_of_not_lt h) with h | h
        · subst h
          cases m.get (a + n) <;> simp
        · have h1 : ¬ j < n + 1 := by omega
          have h2 : ∃ k, j - n = k + 1 := ⟨j - n - 1, by omega⟩
          obtain ⟨k, hk⟩ := h2
          rw [hk]
          cases m.get (a + n) <;> simp [h1, Nat.testBit_succ]

theorem memRead_lt (m : Memory) (a n : Nat) : memRead m a n < 2 ^ n := (memRead_spec m a n).1

theorem memRead_testBit (m : Memory) (a n j : Nat) :
    (memRead m a n).testBit j = (decide (j < n) && m.get (a + j)) := (memRead_spec m a n).2 j

/-- A field of at most 64 bits, as a word: its bits are the storage bits, and above the field it is zero. -/
theorem memRead_word_bit (m : Memory) (a n j : Nat) (hn : n ≤ 64) :
    (BitVec.ofNat 64 (memRead m a n)).getLsbD j = (decide (j < n) && m.get (a + j)) := by
  rw [BitVec.getLsbD_ofNat, memRead_testBit]
  by_cases h : j < n
  · have : j < 64 := by omega
    simp [h, this]
  · simp [h]

theorem memRead_word_toNat (m : Memory) (a n : Nat) (hn : n ≤ 64) :
    (BitVec.ofNat 64 (memRead m a n)).toNat = memRead m a n := by
  have h1 := memRead_lt m a n
  have h2 : 2 ^ n ≤ 2 ^ 64 := Nat.pow_le_pow_right (by decide) hn
  rw [BitVec.toNat_ofNat]
  exact Nat.mod_eq_of_lt (by omega)

/-- Fields that read alike bit by bit are the same number. -/
theorem memRead_congr {m m' : Memory} {a a' n : Nat} (h : ∀ j < n, m.get (a + j) = m'.get (a' + j)) :
    memRead m a n = memRead m' a' n := by
  induction n with
  | zero => rfl
  | succ n ih => simp only [memRead, ih fun j hj => h j (by omega), h n (by omega)]

theorem memWrite_wf (m : Memory) (hm : m.wf) (a n : Nat) (v : Word) : (memWrite m a n v).wf := by
  induction n with
  | zero => exact hm
  | succ n ih => exact Memory.set_wf _ ih _ _

/-- What a field write leaves: bit `j` of the value at address `a + j` for `j < n`, every other bit as it was. -/
theorem memWrite_get (m : Memory) (hm : m.wf) (a n : Nat) (v : Word) (b : Nat) :
    (memWrite m a n v).get b = if a ≤ b ∧ b < a + n then v.getLsbD (b - a) else m.get b := by
  induction n with
  | zero =>
    have : ¬ (a ≤ b ∧ b < a + 0) := by omega
    rw [if_neg this]
    rfl
  | succ n ih =>
    simp only [memWrite, Memory.get_set _ (memWrite_wf m hm a n v), ih]
    by_cases hb : b = a + n
    · subst hb
      have : a ≤ a + n ∧ a + n < a + (n + 1) := by omega
      simp
    · have : (a ≤ b ∧ b < a + (n + 1)) ↔ (a ≤ b ∧ b < a + n) := by omega
      simp only [if_neg hb, this]

theorem memWrite_below {m : Memory} {bound a n : Nat} (v : Word) (hm : ∀ e ∈ m.cells, e.1 < bound)
    (ha : a + n ≤ bound) : ∀ e ∈ (memWrite m a n v).cells, e.1 < bound := by
  induction n with
  | zero => exact hm
  | succ n ih => exact Memory.set_below _ (ih (by omega)) (by omega)

/-! ### Blocks -/

theorem writeBelow_wf (m : Memory) (hm : m.wf) (cap a n : Nat) (v : Word) : (writeBelow m cap a n v).wf := by
  induction n with
  | zero => exact hm
  | succ n ih =>
    simp only [writeBelow]
    split
    · exact Memory.set_wf _ ih _ _
    · exact ih

theorem writeBelow_get (m : Memory) (hm : m.wf) (cap a n : Nat) (v : Word) (b : Nat) :
    (writeBelow m cap a n v).get b = if a ≤ b ∧ b < a + n ∧ b < cap then v.getLsbD (b - a) else m.get b := by
  induction n with
  | zero =>
    have : ¬ (a ≤ b ∧ b < a + 0 ∧ b < cap) := by omega
    rw [if_neg this]
    rfl
  | succ n ih =>
    simp only [writeBelow]
    by_cases hb : b = a + n
    · subst hb
      split
      · next hc =>
        have : a ≤ a + n ∧ a + n < a + (n + 1) ∧ a + n < cap := by omega
        rw [Memory.get_set_same _ (writeBelow_wf m hm cap a n v), if_pos this]
        simp
      · next hc =>
        have h1 : ¬ (a ≤ a + n ∧ a + n < a + (n + 1) ∧ a + n < cap) := by omega
        have h2 : ¬ (a ≤ a + n ∧ a + n < a + n ∧ a + n < cap) := by omega
        rw [ih, if_neg h1, if_neg h2]
    · have : (a ≤ b ∧ b < a + (n + 1) ∧ b < cap) ↔ (a ≤ b ∧ b < a + n ∧ b < cap) := by omega
      simp only [this]
      split
      · rw [Memory.get_set_other _ _ hb, ih]
      · exact ih

theorem writeBelow_below {m : Memory} {bound cap a n : Nat} (v : Word) (hm : ∀ e ∈ m.cells, e.1 < bound)
    (hcap : cap ≤ bound) : ∀ e ∈ (writeBelow m cap a n v).cells, e.1 < bound := by
  induction n with
  | zero => exact hm
  | succ n ih =>
    simp only [writeBelow]
    split
    · exact Memory.set_below _ ih (by omega)
    · exact ih

theorem blockWrite_wf (m : Memory) (hm : m.wf) (cap k : Nat) (v : Word) : (blockWrite m cap k v).wf :=
  writeBelow_wf m hm cap _ _ v

/-- What a block write leaves: the data's bits at the block's addresses below the capacity, every other bit as it was. -/
theorem blockWrite_get (m : Memory) (hm : m.wf) (cap k : Nat) (v : Word) (b : Nat) :
    (blockWrite m cap k v).get b =
      if 64 * k ≤ b ∧ b < 64 * k + 64 ∧ b < cap then v.getLsbD (b - 64 * k) else m.get b :=
  writeBelow_get m hm cap (64 * k) 64 v b

theorem blockRead_bit (m : Memory) (k p : Nat) (hp : p < 64) : (blockRead m k).getLsbD p = m.get (64 * k + p) := by
  have := memRead_word_bit m (64 * k) 64 p (le_refl 64)
  simpa [blockRead, hp] using this

end Sys2Proof.Machine
end

