-- ==== Sys2Proof/Laws/State.lean ====
section
/-! SUPPORT. The fields of a state after each named update, one lemma per field per update, and what the accessors give
after it. -/

namespace Sys2Proof.Machine

/-! ### Delivering a response -/

@[simp] theorem State.reply_cfg (s : State) (st : Status) (d : List Word) : (s.reply st d).cfg = s.cfg := rfl
@[simp] theorem State.reply_ctxs (s : State) (st : Status) (d : List Word) : (s.reply st d).ctxs = s.ctxs := rfl
@[simp] theorem State.reply_record (s : State) (st : Status) (d : List Word) : (s.reply st d).record = s.record := rfl
@[simp] theorem State.reply_inbox (s : State) (st : Status) (d : List Word) : (s.reply st d).inbox = s.inbox := rfl
@[simp] theorem State.reply_outbox (s : State) (st : Status) (d : List Word) :
    (s.reply st d).outbox = s.outbox ++ [{ status := st.code, data := d }] := rfl
@[simp] theorem State.reply_ctx (s : State) (st : Status) (d : List Word) (c : CtxNum) :
    (s.reply st d).ctx c = s.ctx c := rfl
@[simp] theorem State.reply_bit (s : State) (st : Status) (d : List Word) (c : CtxNum) (b : Nat) :
    (s.reply st d).bit c b = s.bit c b := rfl

/-! ### Replacing a context -/

@[simp] theorem State.setCtx_cfg (s : State) (c : CtxNum) (x : Context) : (s.setCtx c x).cfg = s.cfg := rfl
@[simp] theorem State.setCtx_ctxs (s : State) (c : CtxNum) (x : Context) :
    (s.setCtx c x).ctxs = s.ctxs.set c.toNat x := rfl
@[simp] theorem State.setCtx_record (s : State) (c : CtxNum) (x : Context) : (s.setCtx c x).record = s.record := rfl
@[simp] theorem State.setCtx_inbox (s : State) (c : CtxNum) (x : Context) : (s.setCtx c x).inbox = s.inbox := rfl
@[simp] theorem State.setCtx_outbox (s : State) (c : CtxNum) (x : Context) : (s.setCtx c x).outbox = s.outbox := rfl

theorem State.setCtx_ctx_same (s : State) (c : CtxNum) (x : Context) (h : c.toNat < s.ctxs.length) :
    (s.setCtx c x).ctx c = x := by
  simp [State.ctx, h]

theorem State.setCtx_ctx_other (s : State) {c c' : CtxNum} (x : Context) (h : c' ≠ c) :
    (s.setCtx c x).ctx c' = s.ctx c' := by
  have : c.toNat ≠ c'.toNat := fun he => h (BitVec.eq_of_toNat_eq he.symm)
  simp [State.ctx, List.getD_eq_getElem?_getD, this]

theorem State.setCtx_self (s : State) (c : CtxNum) : s.setCtx c (s.ctx c) = s := by
  have : s.ctxs.set c.toNat (s.ctx c) = s.ctxs := by
    refine List.ext_getElem (by simp) fun k h1 h2 => ?_
    by_cases hk : c.toNat = k
    · subst hk
      simp [State.ctx, List.getD_eq_getElem?_getD, h2]
    · simp [List.getElem_set_ne hk]
  simp [State.setCtx, this]

theorem State.setCtx_setCtx (s : State) (c : CtxNum) (x y : Context) : (s.setCtx c x).setCtx c y = s.setCtx c y := by
  simp [State.setCtx, List.set_set]

/-- A context of a state that has it is one of its list. -/
theorem State.ctx_mem (s : State) {c : CtxNum} (h : c.toNat < s.ctxs.length) : s.ctx c ∈ s.ctxs := by
  simp [State.ctx, List.getD_eq_getElem?_getD, h]

/-! ### Replacing a context's storage -/

@[simp] theorem State.setMem_cfg (s : State) (c : CtxNum) (m : Memory) : (s.setMem c m).cfg = s.cfg := rfl
@[simp] theorem State.setMem_record (s : State) (c : CtxNum) (m : Memory) : (s.setMem c m).record = s.record := rfl
@[simp] theorem State.setMem_inbox (s : State) (c : CtxNum) (m : Memory) : (s.setMem c m).inbox = s.inbox := rfl
@[simp] theorem State.setMem_outbox (s : State) (c : CtxNum) (m : Memory) : (s.setMem c m).outbox = s.outbox := rfl

theorem State.setMem_ctx_same (s : State) (c : CtxNum) (m : Memory) (h : c.toNat < s.ctxs.length) :
    (s.setMem c m).ctx c = { s.ctx c with mem := m } := s.setCtx_ctx_same c _ h

theorem State.setMem_ctx_other (s : State) {c c' : CtxNum} (m : Memory) (h : c' ≠ c) :
    (s.setMem c m).ctx c' = s.ctx c' := s.setCtx_ctx_other _ h

theorem State.setMem_bit_same (s : State) (c : CtxNum) (m : Memory) (h : c.toNat < s.ctxs.length) (b : Nat) :
    (s.setMem c m).bit c b = m.get b := by
  rw [State.bit, s.setMem_ctx_same c m h]

theorem State.setMem_bit_other (s : State) {c c' : CtxNum} (m : Memory) (h : c' ≠ c) (b : Nat) :
    (s.setMem c m).bit c' b = s.bit c' b := by
  rw [State.bit, s.setMem_ctx_other m h, State.bit]

theorem State.setMem_onlyStorageDiffers (s : State) (c : CtxNum) (m : Memory) :
    OnlyStorageDiffers s (s.setMem c m) := by
  refine ⟨rfl, rfl, rfl, by simp [State.setMem], fun c' => ?_⟩
  by_cases h : c' = c
  · subst h
    by_cases hl : c'.toNat < s.ctxs.length
    · rw [s.setMem_ctx_same c' m hl]
      exact ⟨rfl, rfl, rfl⟩
    · have : (s.setMem c' m).ctx c' = s.ctx c' := by
        simp [State.setMem, State.ctx, List.getD_eq_getElem?_getD, hl]
      rw [this]
      exact ⟨rfl, rfl, rfl⟩
  · rw [s.setMem_ctx_other m h]
    exact ⟨rfl, rfl, rfl⟩

theorem State.setMem_setMem (s : State) (c : CtxNum) (m m' : Memory) (h : c.toNat < s.ctxs.length) :
    (s.setMem c m).setMem c m' = s.setMem c m' := by
  rw [State.setMem, s.setMem_ctx_same c m h, State.setMem, State.setCtx_setCtx]
  rfl

theorem State.setMem_self (s : State) (c : CtxNum) : s.setMem c (s.ctx c).mem = s := s.setCtx_self c

/-! ### The reset input and the port -/

@[simp] theorem State.resetBlock_cfg (s : State) : s.resetBlock.cfg = s.cfg := rfl
@[simp] theorem State.resetBlock_record (s : State) : s.resetBlock.record = FaultRecord.clear := rfl
@[simp] theorem State.resetBlock_inbox (s : State) : s.resetBlock.inbox = s.inbox := rfl
@[simp] theorem State.resetBlock_outbox (s : State) : s.resetBlock.outbox = s.outbox := rfl
@[simp] theorem State.resetBlock_ctxs (s : State) :
    s.resetBlock.ctxs = List.replicate s.cfg.nCtx Context.empty := rfl

@[simp] theorem State.resetBlock_ctx (s : State) (c : CtxNum) : s.resetBlock.ctx c = Context.empty := by
  by_cases h : c.toNat < s.cfg.nCtx <;> simp [State.ctx, List.getD_eq_getElem?_getD, h]

@[simp] theorem State.present_inbox (s : State) (r : Request) : (s.present r).inbox = .request r :: s.inbox := rfl
@[simp] theorem State.present_ctxs (s : State) (r : Request) : (s.present r).ctxs = s.ctxs := rfl
@[simp] theorem State.present_record (s : State) (r : Request) : (s.present r).record = s.record := rfl
@[simp] theorem State.present_cfg (s : State) (r : Request) : (s.present r).cfg = s.cfg := rfl
@[simp] theorem State.present_outbox (s : State) (r : Request) : (s.present r).outbox = s.outbox := rfl

theorem takeEvent_nil {s : State} (h : s.inbox = []) : takeEvent s = none := by simp [takeEvent, h]

theorem takeEvent_cons {s : State} {e : PortEvent} {es : List PortEvent} (h : s.inbox = e :: es) :
    takeEvent s = some (e, { s with inbox := es }) := by simp [takeEvent, h]

end Sys2Proof.Machine
end

