-- ==== Sys2Proof/Laws/Ops.lean ====
section
/-! SUPPORT. One lemma for each shared operation that says all it can do: answering, fault entry, refusal, the common
checks, and the derived quantities of a context. -/

namespace Sys2Proof.Machine

theorem raiseFault_eq (f : FaultCode) (r : Request) (s : State) :
    raiseFault f r s = .next ({ s with record := faultRecordOf f r }.reply (.fault f) []) := rfl

theorem refuseFaulted_eq (s : State) : refuseFaulted s = .next (s.reply .faulted []) := rfl

/-- All that the common checks can do (60_exceptions.md R144). -/
theorem commonChecks_cases (r : Request) (wf : Bool) (s : State) (rule : Result) :
    (s.record.fault = true ∧ ¬ (wf = true ∧ r.cmd = finfoWord) ∧ commonChecks r wf s rule = refuseFaulted s) ∨
    (s.record.fault = false ∧ wf = false ∧ commonChecks r wf s rule = raiseFault .illegal r s) ∨
    (wf = true ∧ (s.record.fault = false ∨ r.cmd = finfoWord) ∧ commonChecks r wf s rule = rule) := by
  unfold commonChecks
  cases hf : s.record.fault <;> cases wf <;> by_cases hr : r.cmd = finfoWord <;> simp [hr]

/-- A command other than FINFO gets past the refusal only when no fault is recorded. -/
theorem fault_false_of_not_finfo {i : Instr} {s : State} (hi : ∀ a b, i ≠ .finfo a b)
    (h : s.record.fault = false ∨ (encode i).cmd = finfoWord) : s.record.fault = false :=
  h.resolve_right fun h => by
    obtain ⟨a, b, he⟩ := (encode_cmd_eq_finfoWord_iff i).mp h
    exact hi a b he

theorem guarded_refused {i : Instr} {s : State} (rule : Result) (hf : s.record.fault = true)
    (hi : ∀ a b, i ≠ .finfo a b) : guarded i s rule = .next (s.reply .faulted []) := by
  have : (encode i).cmd ≠ finfoWord := fun h => by
    obtain ⟨a, b, he⟩ := (encode_cmd_eq_finfoWord_iff i).mp h
    exact hi a b he
  simp [guarded, commonChecks, hf, this, refuseFaulted_eq]

theorem guarded_illFormed {i : Instr} {s : State} (rule : Result) (hf : s.record.fault = false)
    (hi : i.wellFormed s.cfg = false) : guarded i s rule = raiseFault .illegal (encode i) s := by
  simp [guarded, commonChecks, hf, hi]

theorem guarded_ready {i : Instr} {s : State} (rule : Result) (hf : s.record.fault = false)
    (hi : i.wellFormed s.cfg = true) : guarded i s rule = rule := by
  simp [guarded, commonChecks, hf, hi]

theorem guarded_finfo (a b : Word) (s : State) (rule : Result) : guarded (.finfo a b) s rule = rule := by
  have : (encode (.finfo a b)).cmd = finfoWord := (encode_cmd_eq_finfoWord_iff _).mpr ⟨a, b, rfl⟩
  simp [guarded, commonChecks, Instr.wellFormed, this]

theorem undecodable_eq (r : Request) (s : State) :
    undecodable r s = if s.record.fault = true then .next (s.reply .faulted []) else raiseFault .illegal r s := by
  cases hf : s.record.fault <;> simp [undecodable, commonChecks, hf, refuseFaulted_eq]

theorem hasCtx_iff (cfg : Config) (c : CtxNum) : cfg.hasCtx c = true ↔ c.toNat < cfg.nCtx := by
  simp [Config.hasCtx]

/-! ### Derived quantities -/

theorem Context.isz_le (x : Context) : x.isz.toNat ≤ 63 := by
  have := x.isz.isLt
  omega

/-- Every slot lies inside the capacity (20_memory.md R41). -/
theorem Context.slot_end_le_cap (x : Context) {i : Nat} (h : i < x.cnt.toNat) : x.off i + x.isz.toNat ≤ x.cap := by
  have : (i + 1) * x.isz.toNat ≤ x.cnt.toNat * x.isz.toNat := Nat.mul_le_mul_right _ h
  rw [Nat.succ_mul] at this
  exact this

/-- The capacity lies inside the blocks (10_state.md R25). -/
theorem Context.cap_le_blocks (x : Context) : x.cap ≤ 64 * x.nblk := by
  unfold Context.nblk Config.blockBits
  omega

/-- A block below the count starts below the capacity (10_state.md R25). -/
theorem Context.lt_nblk_iff (x : Context) (k : Nat) : k < x.nblk ↔ 64 * k < x.cap := by
  unfold Context.nblk Config.blockBits
  omega

theorem Context.item_lt (x : Context) (i : Nat) : x.item i < 2 ^ x.isz.toNat := memRead_lt _ _ _

theorem Context.item_testBit (x : Context) (i j : Nat) :
    (x.item i).testBit j = (decide (j < x.isz.toNat) && x.mem.get (i * x.isz.toNat + j)) := memRead_testBit _ _ _ _

theorem Context.item_word_bit (x : Context) (i j : Nat) :
    (BitVec.ofNat 64 (x.item i)).getLsbD j = (decide (j < x.isz.toNat) && x.mem.get (i * x.isz.toNat + j)) :=
  memRead_word_bit _ _ _ _ (by have := x.isz_le; omega)

/-- Two memories that agree on a slot give the item there the same value. -/
theorem memRead_item_congr {m m' : Memory} {z i : Nat} (h : ∀ j < z, m.get (i * z + j) = m'.get (i * z + j)) :
    memRead m (i * z) z = memRead m' (i * z) z := memRead_congr h

theorem Context.items_length (x : Context) : x.items.length = x.cnt.toNat := by simp [Context.items]

theorem Context.items_get (x : Context) {k : Nat} (h : k < x.cnt.toNat) :
    x.items[k]? = some (BitVec.ofNat 64 (x.item k)) := by simp [Context.items, h]

end Sys2Proof.Machine
end

