-- ==== Sys2Proof/Laws/Exec.lean ====
section
/-! SUPPORT. What carrying out a command can do, said once: the form of every answer of `exec`, and that a storage or
context update keeps the invariant. -/

namespace Sys2Proof.Machine

/-- A context that the command line reaches meets the invariant. -/
theorem State.Inv.ctx {s : State} (h : s.Inv) {c : CtxNum} (hc : c.toNat < s.cfg.nCtx) : (s.ctx c).Inv s.cfg :=
  h.2.2.1 _ (s.ctx_mem (h.2.1 ▸ hc))

theorem State.Inv.lt_length {s : State} (h : s.Inv) {c : CtxNum} (hc : c.toNat < s.cfg.nCtx) :
    c.toNat < s.ctxs.length := h.2.1 ▸ hc

/-- Replacing a context by one that meets the invariant keeps the invariant of the state. -/
theorem State.Inv.setCtx {s : State} (h : s.Inv) (c : CtxNum) {x : Context} (hx : x.Inv s.cfg) : (s.setCtx c x).Inv := by
  refine ⟨h.1, by simpa using h.2.1, fun y hy => ?_, h.2.2.2⟩
  rcases List.mem_or_eq_of_mem_set hy with hy | rfl
  · exact h.2.2.1 y hy
  · exact hx

/-- Delivering a response does not touch the invariant. -/
theorem State.Inv.reply {s : State} (h : s.Inv) (st : Status) (d : List Word) : (s.reply st d).Inv := h

/-- A storage update that keeps the canonical form, stays below `MEM_BITS` and touches no padding bit keeps the
invariant of the context. -/
theorem Context.Inv.setMem {cfg : Config} {x : Context} (h : x.Inv cfg) {m : Memory} (hwf : m.wf)
    (hbelow : ∀ e ∈ m.cells, e.1 < cfg.memBits) (hpad : ∀ b, x.cap ≤ b → m.get b = x.mem.get b) :
    ({ x with mem := m } : Context).Inv cfg := by
  obtain ⟨-, -, h3, h4, h5, h6, h7⟩ := h
  exact ⟨hwf, hbelow, h3, h4, h5, h6, fun b hb hc => (hpad b hc).trans (h7 b hb hc)⟩

/-- `Writes s i c x`: carried out in state `s` past every check, command `i` replaces context `c` by `x`. One constructor
for each command that writes a context (10_state.md R34), with the checks of its own that it got past. -/
inductive Writes (s : State) : Instr → CtxNum → Context → Prop where
  | create (c : CtxNum) (n m : Word) (hz : ¬ (s.cfg.zeroWidthReject = true ∧ bitsNeeded m.toNat = 0))
      (hw : bitsNeeded m.toNat < s.cfg.W) (hc : n.toNat * bitsNeeded m.toNat ≤ s.cfg.memBits) :
      Writes s (.create c n m) c (createdContext n (bitsNeeded m.toNat))
  | setitem (c : CtxNum) (i v : Word) (hi : i.toNat < (s.ctx c).cnt.toNat)
      (hv : v.toNat ≤ maxItem (s.ctx c).isz.toNat) :
      Writes s (.setitem c i v) c
        { s.ctx c with mem := memWrite (s.ctx c).mem ((s.ctx c).off i.toNat) (s.ctx c).isz.toNat v }
  | copy (d c : CtxNum) (a b : Word) (hc : c.toNat < s.cfg.nCtx) : Writes s (.copy d c a b) d (s.ctx c)
  | bset (c : CtxNum) (p a : Word) (hp : p.toNat < (s.ctx c).cap) :
      Writes s (.bset c p a) c { s.ctx c with mem := (s.ctx c).mem.set p.toNat true }
  | bclr (c : CtxNum) (p a : Word) (hp : p.toNat < (s.ctx c).cap) :
      Writes s (.bclr c p a) c { s.ctx c with mem := (s.ctx c).mem.set p.toNat false }
  | wrblk (c : CtxNum) (k v : Word) (hk : k.toNat < (s.ctx c).nblk) :
      Writes s (.wrblk c k v) c { s.ctx c with mem := blockWrite (s.ctx c).mem (s.ctx c).cap k.toNat v }

/-- The context that is written is the one that CTX names. -/
theorem Writes.target {s : State} {i : Instr} {c : CtxNum} {x : Context} (h : Writes s i c x) :
    targetOf i = some c := by
  cases h <;> rfl

/-- A command that writes a context is not FINFO and not a read. -/
theorem Writes.not_read {s : State} {i : Instr} {c : CtxNum} {x : Context} (h : Writes s i c x) :
    isReadCommand i = false := by
  cases h <;> rfl

/-- The form of every answer of a command (60_exceptions.md R143 to R145 and the rules of the commands): nothing but the
outbox changes; or it enters a fault, which it does only when none is recorded; or it writes the context that its CTX
names, which exists, and answers OK with no data. -/
theorem exec_shape (i : Instr) (s : State) :
    (∃ st d, exec i s = .next (s.reply st d) ∧ (∀ f, st ≠ .fault f) ∧ (st ≠ .ok → d = [])) ∨
    (s.record.fault = false ∧ ∃ f, exec i s = raiseFault f (encode i) s) ∨
    (s.record.fault = false ∧ i.wellFormed s.cfg = true ∧ ∃ c x, c.toNat < s.cfg.nCtx ∧ Writes s i c x ∧
      exec i s = .next ((s.setCtx c x).reply .ok [])) := by
  rcases commonChecks_cases (encode i) (i.wellFormed s.cfg) s (.next s) with
    ⟨hf, hi, -⟩ | ⟨hf, hi, -⟩ | ⟨hi, hf, -⟩
  · have hi' : ∀ a b, i ≠ .finfo a b := by
      rintro a b rfl
      exact hi ⟨rfl, (encode_cmd_eq_finfoWord_iff _).mpr ⟨a, b, rfl⟩⟩
    refine .inl ⟨.faulted, [], ?_, by simp, fun _ => rfl⟩
    cases i with
    | finfo a b => exact absurd rfl (hi' a b)
    | create | setitem | getitem | getitems | copy | info | bset | bclr | btest | rdblk | wrblk =>
      exact guarded_refused _ hf hi'
  · refine .inr (.inl ⟨hf, .illegal, ?_⟩)
    cases i with
    | finfo a b => simp [Instr.wellFormed] at hi
    | create | setitem | getitem | getitems | copy | info | bset | bclr | btest | rdblk | wrblk =>
      exact guarded_illFormed _ hf hi
  · cases i with
    | finfo a b => exact .inl ⟨.ok, s.record.words, guarded_finfo a b s _, by simp, by simp⟩
    | create c a b =>
      replace hf := fault_false_of_not_finfo (by simp) hf
      simp only [exec, execCreate, guarded_ready _ hf hi]
      split
      · exact .inl ⟨.cfgZeroWidth, [], rfl, by simp, fun _ => rfl⟩
      split
      · exact .inl ⟨.cfgWidth, [], rfl, by simp, fun _ => rfl⟩
      split
      · exact .inl ⟨.cfgCapacity, [], rfl, by simp, fun _ => rfl⟩
      · exact .inr (.inr ⟨hf, hi, c, _, (hasCtx_iff _ _).mp hi, .create c a b ‹_› (by omega) (by omega), rfl⟩)
    | setitem c a b =>
      replace hf := fault_false_of_not_finfo (by simp) hf
      simp only [exec, execSetitem, guarded_ready _ hf hi]
      split
      · exact .inr (.inl ⟨hf, .index, rfl⟩)
      split
      · exact .inr (.inl ⟨hf, .value, rfl⟩)
      · exact .inr (.inr ⟨hf, hi, c, _, (hasCtx_iff _ _).mp hi, .setitem c a b (by omega) (by omega), rfl⟩)
    | getitem c a b =>
      replace hf := fault_false_of_not_finfo (by simp) hf
      simp only [exec, execGetitem, guarded_ready _ hf hi]
      split
      · exact .inr (.inl ⟨hf, .index, rfl⟩)
      · exact .inl ⟨.ok, _, rfl, by simp, by simp⟩
    | getitems c a b =>
      replace hf := fault_false_of_not_finfo (by simp) hf
      exact .inl ⟨.ok, _, guarded_ready _ hf hi, by simp, by simp⟩
    | copy d c a b =>
      replace hf := fault_false_of_not_finfo (by simp) hf
      have hd : s.cfg.hasCtx d = true ∧ s.cfg.hasCtx c = true := by
        simpa only [Instr.wellFormed, Bool.and_eq_true] using hi
      exact .inr (.inr ⟨hf, hi, d, _, (hasCtx_iff _ _).mp hd.1, .copy d c a b ((hasCtx_iff _ _).mp hd.2), guarded_ready _ hf hi⟩)
    | info c a b =>
      replace hf := fault_false_of_not_finfo (by simp) hf
      exact .inl ⟨.ok, _, guarded_ready _ hf hi, by simp, by simp⟩
    | bset c a b =>
      replace hf := fault_false_of_not_finfo (by simp) hf
      simp only [exec, execBset, guarded_ready _ hf hi, withBitIndex]
      split
      · exact .inr (.inl ⟨hf, .bitIndex, rfl⟩)
      · exact .inr (.inr ⟨hf, hi, c, _, (hasCtx_iff _ _).mp hi, .bset c a b (by omega), rfl⟩)
    | bclr c a b =>
      replace hf := fault_false_of_not_finfo (by simp) hf
      simp only [exec, execBclr, guarded_ready _ hf hi, withBitIndex]
      split
      · exact .inr (.inl ⟨hf, .bitIndex, rfl⟩)
      · exact .inr (.inr ⟨hf, hi, c, _, (hasCtx_iff _ _).mp hi, .bclr c a b (by omega), rfl⟩)
    | btest c a b =>
      replace hf := fault_false_of_not_finfo (by simp) hf
      simp only [exec, execBtest, guarded_ready _ hf hi, withBitIndex]
      split
      · exact .inr (.inl ⟨hf, .bitIndex, rfl⟩)
      · exact .inl ⟨.ok, _, rfl, by simp, by simp⟩
    | rdblk c a b =>
      replace hf := fault_false_of_not_finfo (by simp) hf
      simp only [exec, execRdblk, guarded_ready _ hf hi, withBlockIndex]
      split
      · exact .inr (.inl ⟨hf, .blockIndex, rfl⟩)
      · exact .inl ⟨.ok, _, rfl, by simp, by simp⟩
    | wrblk c a b =>
      replace hf := fault_false_of_not_finfo (by simp) hf
      simp only [exec, execWrblk, guarded_ready _ hf hi, withBlockIndex]
      split
      · exact .inr (.inl ⟨hf, .blockIndex, rfl⟩)
      · exact .inr (.inr ⟨hf, hi, c, _, (hasCtx_iff _ _).mp hi, .wrblk c a b (by omega), rfl⟩)

/-- A result with the host's further events replaced. -/
def withInbox (es : List PortEvent) (r : Result) : Result :=
  match r with
  | .next t => .next { t with inbox := es }
  | .fault f => .fault f
  | .refused f => .refused f

theorem withInbox_ite (es : List PortEvent) (p : Prop) [Decidable p] (r r' : Result) :
    withInbox es (if p then r else r') = if p then withInbox es r else withInbox es r' := by
  split <;> rfl

/-- No command looks at what the host will do next. -/
theorem exec_withInbox (i : Instr) (s : State) (es : List PortEvent) :
    exec i { s with inbox := es } = withInbox es (exec i s) := by
  cases i <;>
    simp only [exec, execCreate, execSetitem, execGetitem, execGetitems, execCopy, execInfo, execBset, execBclr,
      execBtest, execRdblk, execWrblk, execFinfo, guarded, commonChecks, withBitIndex, withBlockIndex, withInbox_ite] <;>
    rfl

/-- A result with responses of earlier put before the ones it delivered. -/
def withEarlier (out : List Response) (r : Result) : Result :=
  match r with
  | .next t => .next { t with outbox := out ++ t.outbox }
  | .fault f => .fault f
  | .refused f => .refused f

theorem withEarlier_ite (out : List Response) (p : Prop) [Decidable p] (r r' : Result) :
    withEarlier out (if p then r else r') = if p then withEarlier out r else withEarlier out r' := by
  split <;> rfl

theorem withEarlier_respond (out : List Response) (st : Status) (d : List Word) (s : State) :
    withEarlier out (respond st d s) = respond st d { s with outbox := out ++ s.outbox } := by
  simp [withEarlier, respond, State.reply]

/-- No command looks at the responses already delivered (10_state.md R33). -/
theorem exec_withEarlier (i : Instr) (s : State) (out : List Response) :
    exec i { s with outbox := out ++ s.outbox } = withEarlier out (exec i s) := by
  cases i <;>
    simp only [exec, execCreate, execSetitem, execGetitem, execGetitems, execCopy, execInfo, execBset, execBclr,
      execBtest, execRdblk, execWrblk, execFinfo, guarded, commonChecks, withBitIndex, withBlockIndex, raiseFault,
      refuseFaulted, withEarlier_ite, withEarlier_respond] <;>
    rfl

end Sys2Proof.Machine
end

