-- ==== Sys2Proof/Laws/PerInstr.lean ====
section
/-! SUPPORT. Facts about every command as syntax, one lemma for each constructor. The family EncodeMatchesRow: the word
that the encoder makes is accepted by the row of 30_encoding.md R65 of that command. -/

namespace Sys2Proof.Laws.EncodeMatchesRow

/-- The place in the table of 30_encoding.md R65 of a command's row. -/
def rowIndex (i : Instr) : Nat :=
  match i with
  | .create _ _ _ => 0
  | .setitem _ _ _ => 1
  | .getitem _ _ _ => 2
  | .getitems _ _ _ => 3
  | .copy _ _ _ _ => 4
  | .info _ _ _ => 5
  | .bset _ _ _ => 6
  | .bclr _ _ _ => 7
  | .btest _ _ _ => 8
  | .rdblk _ _ _ => 9
  | .wrblk _ _ _ => 10
  | .finfo _ _ => 11

/-- The encoded word is accepted by the command's own row. -/
def Statement (i : Instr) : Prop :=
  ∃ row, encodingTable[rowIndex i]? = some row ∧ row.accepts (encode i).cmd = true

/-- A word with CTX only, under the mask of the rows that leave CTX free. -/
theorem ctx_row (o : BitVec 8) (c : CtxNum) : cmdWord o c 0 &&& 0xFFFFF0FF = cmdWord o 0 0 := by
  refine BitVec.eq_of_getLsbD_eq fun i hi => ?_
  rw [BitVec.getLsbD_and, cmdWord_bit, cmdWord_bit]
  have : ∀ i < 32, BitVec.getLsbD (0xFFFFF0FF : CmdWord) i = !decide (8 ≤ i ∧ i < 12) := by decide
  rw [this i hi]
  split
  · simp; omega
  · split
    · simp; omega
    · simp

/-- A word with CTX and SRC, under the mask of COPY's row. -/
theorem copy_row (o : BitVec 8) (c s : CtxNum) : cmdWord o c s &&& 0xFFFF00FF = cmdWord o 0 0 := by
  refine BitVec.eq_of_getLsbD_eq fun i hi => ?_
  rw [BitVec.getLsbD_and, cmdWord_bit, cmdWord_bit]
  have : ∀ i < 32, BitVec.getLsbD (0xFFFF00FF : CmdWord) i = !decide (8 ≤ i ∧ i < 16) := by decide
  rw [this i hi]
  split
  · simp; omega
  · split
    · simp; omega
    · by_cases h : i - 12 < 4
      · simp; omega
      · simp [BitVec.getLsbD_of_ge s (i - 12) (by omega)]

theorem create (c : CtxNum) (arg0 arg1 : Word) : Statement (.create c arg0 arg1) :=
  ⟨_, rfl, beq_iff_eq.mpr (ctx_row 0x01 c)⟩

theorem setitem (c : CtxNum) (arg0 arg1 : Word) : Statement (.setitem c arg0 arg1) :=
  ⟨_, rfl, beq_iff_eq.mpr (ctx_row 0x02 c)⟩

theorem getitem (c : CtxNum) (arg0 arg1 : Word) : Statement (.getitem c arg0 arg1) :=
  ⟨_, rfl, beq_iff_eq.mpr (ctx_row 0x03 c)⟩

theorem getitems (c : CtxNum) (arg0 arg1 : Word) : Statement (.getitems c arg0 arg1) :=
  ⟨_, rfl, beq_iff_eq.mpr (ctx_row 0x04 c)⟩

theorem copy (d c : CtxNum) (arg0 arg1 : Word) : Statement (.copy d c arg0 arg1) :=
  ⟨_, rfl, beq_iff_eq.mpr (copy_row 0x05 d c)⟩

theorem info (c : CtxNum) (arg0 arg1 : Word) : Statement (.info c arg0 arg1) :=
  ⟨_, rfl, beq_iff_eq.mpr (ctx_row 0x06 c)⟩

theorem bset (c : CtxNum) (arg0 arg1 : Word) : Statement (.bset c arg0 arg1) :=
  ⟨_, rfl, beq_iff_eq.mpr (ctx_row 0x08 c)⟩

theorem bclr (c : CtxNum) (arg0 arg1 : Word) : Statement (.bclr c arg0 arg1) :=
  ⟨_, rfl, beq_iff_eq.mpr (ctx_row 0x09 c)⟩

theorem btest (c : CtxNum) (arg0 arg1 : Word) : Statement (.btest c arg0 arg1) :=
  ⟨_, rfl, beq_iff_eq.mpr (ctx_row 0x0A c)⟩

theorem rdblk (c : CtxNum) (arg0 arg1 : Word) : Statement (.rdblk c arg0 arg1) :=
  ⟨_, rfl, beq_iff_eq.mpr (ctx_row 0x0C c)⟩

theorem wrblk (c : CtxNum) (arg0 arg1 : Word) : Statement (.wrblk c arg0 arg1) :=
  ⟨_, rfl, beq_iff_eq.mpr (ctx_row 0x0D c)⟩

theorem finfo (arg0 arg1 : Word) : Statement (.finfo arg0 arg1) :=
  ⟨_, rfl, show (finfoWord &&& 0xFFFFFFFF == finfoWord) = true by decide⟩

end Sys2Proof.Laws.EncodeMatchesRow
end

