-- ==== Sys2Proof/Tests/Slice0.lean ====
section
/-! SUPPORT. Tests: well-formedness, decoding of written-out words, one step each on small states, and a witness for the
hypotheses of every statement that has some. Expected values come from spec/95_test_vectors.md or are worked out by hand
from the rule named. -/

namespace Sys2Proof.Tests

open Sys2Proof.Machine

/-! ### Small states -/

/-- A configured context with these bits set. -/
def packed (isz : BitVec 6) (cnt : Word) (bits : List Nat) : Context :=
  { tag := .configured, isz := isz, cnt := cnt, mem := { cells := bits.map fun b => (b, true) } }

/-- The block with these two contexts and no fault. -/
def block (x y : Context) : State := { State.reset with ctxs := [x, y] }

/-- The source's scenario: width 3, items 5, 0, 7; context 1 EMPTY (40_bitvector.md R86). -/
def scenario : State := block (packed 3 3 [0, 2, 6, 7, 8]) Context.empty

/-- Width 5, 20 items, item 12 all ones across the block boundary, item 19 = 0x15; context 1 of width 63
(95_test_vectors.md P3). -/
def crossing : State := block (packed 5 20 [60, 61, 62, 63, 64, 95, 97, 99]) (packed 63 2 [])

/-- The record of `rdblk c0, 1` on the scenario (95_test_vectors.md 2.8). -/
def faulted : State := { scenario with record := ⟨true, 0x45, 0x0000000C, 1, 0⟩ }

/-- The outcome is a next state with this property. -/
def goesOn (r : Result) (p : State → Bool) : Bool :=
  match r with
  | .next t => p t
  | .fault _ => false
  | .refused _ => false

/-- The outcome answers exactly this. -/
def answers (r : Result) (status : BitVec 8) (data : List Word) : Bool :=
  goesOn r fun t => t.outbox == [{ status := status, data := data }]

/-! ### Well-formedness (30_encoding.md R66), at `N_CTX = 2` -/

theorem test_wellFormed_accepts_every_context :
    (∀ c : CtxNum, c < 2 → Instr.wellFormed .reference (.create c 0 0) = true ∧
      Instr.wellFormed .reference (.copy c 1 0 0) = true) ∧
    Instr.wellFormed .reference (.finfo 0 0) = true := by decide

theorem test_wellFormed_refuses_missing_ctx :
    ∀ i ∈ [Instr.create 2 0 0, .setitem 2 0 0, .getitem 2 0 0, .getitems 2 0 0, .copy 2 0 0 0, .info 2 0 0, .bset 2 0 0,
      .bclr 2 0 0, .btest 2 0 0, .rdblk 2 0 0, .wrblk 2 0 0], i.wellFormed .reference = false := by decide

theorem test_wellFormed_refuses_missing_src : Instr.wellFormed .reference (.copy 1 2 0 0) = false := by decide

/-! ### Decoding: a word of each command written out from 30_encoding.md R65 -/

theorem test_decode_create : decodeTableWord 32 0b00000000000000000000000000000001 = some (.create 0 0 0) := by decide
theorem test_decode_setitem : decodeTableWord 32 0b00000000000000000000000100000010 = some (.setitem 1 0 0) := by decide
theorem test_decode_getitem : decodeTableWord 32 0b00000000000000000000001000000011 = some (.getitem 2 0 0) := by decide
theorem test_decode_getitems : decodeTableWord 32 0b00000000000000000000010000000100 = some (.getitems 4 0 0) := by decide
theorem test_decode_copy : decodeTableWord 32 0b00000000000000000010000100000101 = some (.copy 1 2 0 0) := by decide
theorem test_decode_info : decodeTableWord 32 0b00000000000000000000100000000110 = some (.info 8 0 0) := by decide
theorem test_decode_bset : decodeTableWord 32 0b00000000000000000000000100001000 = some (.bset 1 0 0) := by decide
theorem test_decode_bclr : decodeTableWord 32 0b00000000000000000000000100001001 = some (.bclr 1 0 0) := by decide
theorem test_decode_btest : decodeTableWord 32 0b00000000000000000000000100001010 = some (.btest 1 0 0) := by decide
theorem test_decode_rdblk : decodeTableWord 32 0b00000000000000000000000100001100 = some (.rdblk 1 0 0) := by decide
theorem test_decode_wrblk : decodeTableWord 32 0b00000000000000000000111100001101 = some (.wrblk 15 0 0) := by decide
theorem test_decode_finfo : decodeTableWord 32 0b00000000000000000000000000001111 = some (.finfo 0 0) := by decide

theorem test_decode_operands : decodeTableWord 160 (2 + 5 * 2 ^ 32 + 7 * 2 ^ 96) = some (.setitem 0 5 7) := by decide

/-- 95_test_vectors.md 2.7: the words that no row accepts, each refused for its own reason. -/
theorem test_decode_refuses :
    [0x00000000, 0x00000007, 0x000000FF, 0x00010001, 0x00001001, 0x0000100F, 0x0000010F].map
      (fun w => (decode ⟨w, 0, 0⟩).toOption) = [none, none, none, none, none, none, none] ∧
    (decode ⟨0x00010001, 0, 0⟩ = .error .reservedBitsSet ∧ decode ⟨0x0000000E, 0, 0⟩ = .error .reservedOpcode) ∧
    (decode ⟨0x00001001, 0, 0⟩ = .error .unusedSrcSet ∧ decode ⟨0x0000010F, 0, 0⟩ = .error .unusedCtxSet) := by
  refine ⟨by decide, ⟨rfl, rfl⟩, rfl, rfl⟩

/-- 30_encoding.md R69, R70: comments, hexadecimal, an omitted operand, and operands that do not fit. -/
theorem test_assemble :
    (assembleLine " wrblk c1,1 , 0xfF ; save").toOption = some (some (.wrblk 1 1 255)) ∧
    (assembleLine "setitem c0, 4").toOption = some (some (.setitem 0 4 0)) ∧
    (assembleLine "createw c1, 10, 7").toOption = some (some (.create 1 10 127)) ∧
    (assembleLine "bwrite c0, 9, 2").toOption = none := by decide

/-! ### One step of each command -/

theorem test_create : goesOn (exec (.create 0 3 5) State.reset) (fun t =>
    t.ctx 0 == packed 3 3 [] && t.outbox == [⟨0x00, []⟩]) = true := by decide

theorem test_create_refuses_width_64 : answers (exec (.create 0 1 0x8000000000000000) scenario) 0x01 [] = true := by
  decide

theorem test_setitem_crosses_a_block : goesOn (exec (.setitem 0 12 0x1F) (block (packed 5 20 []) Context.empty)) (fun t =>
    t.ctx 0 == packed 5 20 [60, 61, 62, 63, 64]) = true := by decide

/-- 95_test_vectors.md P2: value 6 of width 3 sets slot bits 1 and 2, and clears what was there. -/
theorem test_setitem_bit_order : goesOn (exec (.setitem 0 0 6) (block (packed 3 4 [0, 9]) Context.empty)) (fun t =>
    t.ctx 0 == packed 3 4 [1, 2, 9]) = true := by decide

theorem test_getitem_crosses_a_block : answers (exec (.getitem 0 12 0) crossing) 0x00 [31] = true := by decide

/-- 42_status.md R130: `getitem c0, 3` records `(0x42, 0x00000003, 3, 0)` and changes no context. -/
theorem test_getitem_index_fault : goesOn (exec (.getitem 0 3 0) scenario) (fun t =>
    t.record == ⟨true, 0x42, 0x00000003, 3, 0⟩ && t.ctxs == scenario.ctxs && t.outbox == [⟨0x42, []⟩]) = true := by decide

theorem test_getitems : answers (exec (.getitems 0 0 0) scenario) 0x00 [5, 0, 7] = true := by decide

theorem test_copy : goesOn (exec (.copy 1 0 0 0) scenario) (fun t =>
    t.ctx 1 == scenario.ctx 0 && t.ctx 0 == scenario.ctx 0) = true := by decide

theorem test_copy_of_an_empty_context : goesOn (exec (.copy 0 1 0 0) scenario) (fun t =>
    t.ctx 0 == Context.empty && t.outbox == [⟨0x00, []⟩]) = true := by decide

theorem test_info : answers (exec (.info 0 0 0) scenario) 0x00 [1, 3, 3] = true := by decide

theorem test_bset : goesOn (exec (.bset 0 4 0) scenario) (fun t =>
    t.ctx 0 == packed 3 3 [0, 2, 4, 6, 7, 8]) = true := by decide

theorem test_bset_padding_fault : goesOn (exec (.bset 0 9 0) scenario) (fun t =>
    t.record == ⟨true, 0x44, 0x00000008, 9, 0⟩ && t.ctxs == scenario.ctxs) = true := by decide

theorem test_bclr : goesOn (exec (.bclr 0 8 0) scenario) (fun t => t.ctx 0 == packed 3 3 [0, 2, 6, 7]) = true := by decide

theorem test_btest_one : answers (exec (.btest 0 2 0) scenario) 0x00 [1] = true := by decide
theorem test_btest_zero : answers (exec (.btest 0 1 0) scenario) 0x00 [0] = true := by decide

theorem test_rdblk : answers (exec (.rdblk 0 0 0) scenario) 0x00 [0x1C5] = true := by decide
theorem test_rdblk_second_block : answers (exec (.rdblk 0 1 0) crossing) 0x00 [0x0000000A80000001] = true := by decide

theorem test_wrblk_drops_padding : goesOn (exec (.wrblk 0 0 0xFFFFFFFFFFFFFFFF) (block (packed 3 3 []) Context.empty))
    (fun t => t.ctx 0 == packed 3 3 [0, 1, 2, 3, 4, 5, 6, 7, 8]) = true := by decide

theorem test_wrblk_clears : goesOn (exec (.wrblk 0 1 0) crossing) (fun t =>
    t.ctx 0 == packed 5 20 [60, 61, 62, 63]) = true := by decide

theorem test_finfo_after_a_fault : answers (exec (.finfo 0 0) faulted) 0x00 [1, 0x45, 0x0C, 1, 0] = true := by decide

/-! ### Steps -/

theorem test_step_ill_formed_word : goesOn (step (State.reset.present ⟨0x00001001, 3, 5⟩)) (fun t =>
    t.record == ⟨true, 0x41, 0x00001001, 3, 5⟩ && t.inbox == []) = true := by decide

theorem test_step_ill_formed_finfo_is_refused :
    answers (step (faulted.present ⟨0x0000010F, 0, 0⟩)) 0x80 [] = true := by decide

theorem test_step_reset : goesOn (step { faulted with inbox := [.reset] }) (fun t => t == State.reset) = true := by decide

theorem test_step_runs_the_fetch_word : answers (step (scenario.withFetchWord 32 0x00000004)) 0x00 [5, 0, 7] = true := by
  decide

/-! ### Witnesses: a state and operands that meet the hypotheses of each statement, at the boundary of each clause -/

theorem witness_invariant : State.reset.Inv ∧ scenario.Inv ∧ crossing.Inv ∧ faulted.Inv ∧ State.reset.Ready 1 ∧
    scenario.Ready 0 ∧ crossing.Ready 0 ∧ State.reset.ctxs.all (fun x => decide x.mem.wf) = true :=
  ⟨by decide, by decide, by decide, by decide, by decide, by decide, by decide, by decide⟩

theorem witness_EncodeOfDecodeGivesTheRequestBack :
    decode ⟨0x0000F105, 1, 2⟩ = .ok (.copy 1 15 1 2) ∧ decode ⟨0x0000000F, 1, 2⟩ = .ok (.finfo 1 2) := ⟨rfl, rfl⟩

theorem witness_StepRunsTheDecodedCommand :
    (scenario.present ⟨0x00000004, 0, 0⟩).inbox = .request ⟨0x00000004, 0, 0⟩ :: [] ∧
    decode ⟨0x00000004, 0, 0⟩ = .ok (.getitems 0 0 0) ∧ scenario.inbox = [] := ⟨rfl, rfl, rfl⟩

/-- The hypotheses of the three clauses on the order of checks, for a host that presents the command word `w`. -/
abbrev RefusedFor (s : State) (w : CmdWord) : Prop :=
  s.inbox = .request ⟨w, 0, 0⟩ :: [] ∧ s.record.fault = true ∧ ¬ (wellFormedCmd s.cfg w ∧ w = 0x0000000F)
abbrev IllFormedFor (s : State) (w : CmdWord) : Prop :=
  s.inbox = .request ⟨w, 0, 0⟩ :: [] ∧ s.record.fault = false ∧ ¬ wellFormedCmd s.cfg w
abbrev CarriedOutFor (s : State) (w : CmdWord) : Prop :=
  s.inbox = .request ⟨w, 0, 0⟩ :: [] ∧ wellFormedCmd s.cfg w ∧ (s.record.fault = false ∨ w = 0x0000000F)

theorem witness_RequestsAreCheckedInTheOrderOfTheSpec :
    RefusedFor (faulted.present ⟨0x0000010F, 0, 0⟩) 0x0000010F ∧
    RefusedFor (faulted.present ⟨0x00000001, 0, 0⟩) 0x00000001 ∧
    IllFormedFor (scenario.present ⟨0x00000201, 0, 0⟩) 0x00000201 ∧
    IllFormedFor (scenario.present ⟨0x00002105, 0, 0⟩) 0x00002105 ∧
    CarriedOutFor (scenario.present ⟨0x00001105, 0, 0⟩) 0x00001105 ∧
    CarriedOutFor (faulted.present ⟨0x0000000F, 0, 0⟩) 0x0000000F :=
  ⟨by decide, by decide, by decide, by decide, by decide, by decide⟩

theorem witness_ReservedEncodingsRaiseIllegal :
    (scenario.present ⟨0x0000000E, 0, 0⟩).inbox = .request ⟨0x0000000E, 0, 0⟩ :: [] ∧
    (scenario.present ⟨0x0000000E, 0, 0⟩).record.fault = false ∧
    opcField 0x0000000E ∈ [0x00#8, 0x07#8, 0x0B#8, 0x0E#8] ∧ 0x10 ≤ (opcField 0x00000010).toNat ∧
    0x10 ≤ (opcField 0x000000FF).toNat ∧ rsvdField 0x00010001 ≠ 0 ∧ rsvdField 0x80000001 ≠ 0 ∧
    (opcField 0x00001001 ≠ 0x05 ∧ srcField 0x00001001 ≠ 0) ∧
    (opcField 0x0000010F = 0x0F ∧ ctxField 0x0000010F ≠ 0) := by decide

theorem witness_CommandsAreRefusedAfterAFault :
    faulted.record.fault = true ∧ (∀ a b, Instr.getitem 0 0 0 ≠ .finfo a b) ∧ ∃ a b, Instr.finfo 3 4 = .finfo a b :=
  ⟨rfl, by simp, 3, 4, rfl⟩

theorem witness_MissingContextsRaiseIllegal :
    scenario.record.fault = false ∧ (∃ c, targetOf (.create 2 0 0) = some c ∧ scenario.cfg.nCtx ≤ c.toNat) ∧
    ∃ d c a b, Instr.copy 1 2 0 0 = .copy d c a b ∧ scenario.cfg.nCtx ≤ c.toNat :=
  ⟨rfl, ⟨2, rfl, by decide⟩, 1, 2, 0, 0, rfl, by decide⟩

theorem witness_FaultEntryWritesTheRecordAndNothingElse :
    (∃ t, (scenario.present ⟨0x00000003, 3, 0⟩).inbox = .request ⟨0x00000003, 3, 0⟩ :: [] ∧
      step (scenario.present ⟨0x00000003, 3, 0⟩) = .next t ∧
      (scenario.present ⟨0x00000003, 3, 0⟩).record.fault = false ∧ t.record.fault = true) ∧
    ∃ t, step (scenario.present ⟨0x00000000, 0, 0⟩) = .next t ∧ t.record.fault = true :=
  ⟨⟨_, rfl, rfl, rfl, rfl⟩, _, rfl, rfl⟩

theorem witness_OnlyResetClearsTheFaultRecord :
    (∃ t, step faulted = .next t ∧ faulted.record.fault = true ∧ faulted.inbox = []) ∧
    (∃ t, step (faulted.present ⟨0x00000001, 3, 5⟩) = .next t ∧
      (faulted.present ⟨0x00000001, 3, 5⟩).inbox = .request ⟨0x00000001, 3, 5⟩ :: []) ∧
    (∃ t, step { faulted with inbox := [.reset] } = .next t) ∧
    ∃ t, step { faulted with inbox := [.resetDuring ⟨0x00000001, 3, 5⟩] } = .next t :=
  ⟨⟨_, rfl, rfl, rfl⟩, ⟨_, rfl, rfl⟩, ⟨_, rfl⟩, _, rfl⟩

theorem witness_FaultOutputRisesOnAFaultAndFallsAtReset :
    (∃ t, step (scenario.present ⟨0x00000000, 0, 0⟩) = .next t ∧
      (0x41 : BitVec 8) ∈ faultCodes ∧ (scenario.present ⟨0x00000000, 0, 0⟩).record.fault = false ∧
      t.outbox = (scenario.present ⟨0x00000000, 0, 0⟩).outbox ++ [{ status := 0x41, data := [] }] ∧
      (scenario.present ⟨0x00000000, 0, 0⟩).faultOut = false ∧ t.faultOut = true) ∧
    ∃ t, step { faulted with inbox := [.reset] } = .next t ∧ faulted.faultOut = true ∧ t.faultOut = false :=
  ⟨⟨_, rfl, by decide, rfl, rfl, rfl, rfl⟩, _, rfl, rfl, rfl⟩

theorem witness_EveryRequestGetsExactlyOneResponse :
    (faulted.present ⟨0x00000000, 0, 0⟩).inbox = .request ⟨0x00000000, 0, 0⟩ :: [] := rfl

theorem witness_RunsAreTheFoldOfTheCommands :
    ({ scenario with inbox := requestsOf [.bset 0 4 0, .getitem 0 1 0] ++ [.reset] } : State).inbox =
      requestsOf [.bset 0 4 0, .getitem 0 1 0] ++ [.reset] := rfl

theorem witness_RunsEndAtAFaultWhenAResponseSaysSo :
    (∀ e ∈ (scenario.present ⟨0x00000003, 3, 0⟩).inbox, ∃ r, e = .request r) ∧
    (scenario.present ⟨0x00000003, 3, 0⟩).record.fault = false ∧
    (scenario.present ⟨0x00000003, 3, 0⟩).NoFaultSoFar ∧
    ∃ t, Sys2Proof.core.run 1 (scenario.present ⟨0x00000003, 3, 0⟩) = .next t ∧ t.record.fault = true :=
  ⟨by simp [State.present, scenario, block, State.reset, State.resetWith], rfl, by decide, _, rfl, rfl⟩

theorem witness_ResponsesHaveTheStatusesAndLengthsOfTheSpec :
    (∃ t, exec (.getitems 0 0 0) scenario = .next t ∧ t.outbox = [] ++ [⟨0x00, [5, 0, 7]⟩]) ∧
    ∃ t, exec (.create 0 1 0x8000000000000000) scenario = .next t ∧ t.outbox = [⟨0x01, []⟩] := ⟨⟨_, rfl, rfl⟩, _, rfl, rfl⟩

theorem witness_ResetMeetsTheInvariant :
    ({ W := 2, memBits := 64, nCtx := 16, zeroWidthReject := true } : Config).Legal ∧ Config.reference.Legal := by decide

theorem witness_EveryStepKeepsTheInvariant :
    ((scenario.present ⟨0x0000000D, 0, 511⟩).Inv ∧ ∃ t, step (scenario.present ⟨0x0000000D, 0, 511⟩) = .next t) ∧
    ((faulted.present ⟨0x00000000, 0, 0⟩).Inv ∧ ∃ t, step (faulted.present ⟨0x00000000, 0, 0⟩) = .next t) :=
  ⟨⟨by decide, _, rfl⟩, by decide, _, rfl⟩

/-- The bit at 64, outside the one block of width 3 and count 3, differs. -/
def outsideBit : State := block (packed 3 3 [0, 2, 6, 7, 8, 64]) Context.empty

theorem witness_BitsOutsideTheContextsAreNeverObserved :
    scenario.Inv ∧ outsideBit.Inv ∧ SameVisible scenario outsideBit ∧ scenario ≠ outsideBit :=
  ⟨by decide, by decide, by decide, by decide⟩

theorem witness_OnlyCreateAndCopyConfigureContexts :
    configures (.setitem 0 2 7) = false ∧ ∃ t, exec (.setitem 0 2 7) scenario = .next t := ⟨rfl, _, rfl⟩

theorem witness_ReadsChangeNothingAndRepeatsChangeNothingMore :
    (isReadCommand (.getitem 0 2 0) = true ∧ ∃ t, exec (.getitem 0 2 0) scenario = .next t ∧
      ¬ (scenario.record.fault = false ∧ t.record.fault = true)) ∧
    (isReadCommand (.finfo 0 0) = true ∧ ∃ t, exec (.finfo 0 0) faulted = .next t ∧
      ¬ (faulted.record.fault = false ∧ t.record.fault = true)) ∧
    scenario.Inv ∧ ∃ t, exec (.copy 1 0 0 0) scenario = .next t ∧
      ¬ (scenario.record.fault = false ∧ t.record.fault = true) :=
  ⟨⟨rfl, _, rfl, by simp [scenario, block, State.reset, State.resetWith, FaultRecord.clear, State.reply]⟩,
    ⟨rfl, _, rfl, by simp [faulted]⟩, by decide, _, rfl,
    by simp [scenario, block, State.reset, State.resetWith, FaultRecord.clear, State.reply]⟩

theorem witness_ResetInputPutsTheBlockInItsResetState :
    ({ faulted with inbox := [.resetDuring ⟨0x00000001, 3, 5⟩, .reset] } : State).inbox =
      .resetDuring ⟨0x00000001, 3, 5⟩ :: [.reset] := rfl

theorem witness_BitsNeededIsTheNumberOfBinaryDigits :
    (1 : Nat) ≤ 1 ∧ bitsNeeded 1 = 1 ∧ bitsNeeded (2 ^ 63 - 1) = 63 ∧ bitsNeeded (2 ^ 63) = 64 := by decide

theorem witness_SlotsLieInsideTheCapacity :
    (packed 3 3 [0, 2, 6, 7, 8]).Inv .reference ∧ 2 < (packed 3 3 [0, 2, 6, 7, 8]).cnt.toNat ∧
    (packed 0 4 []).Inv .reference ∧ (packed 0 4 []).isz = 0 := by decide

/-- The conditions under which CREATE is not rejected, at the widest item, the largest capacity, and width 0 with the
largest count. -/
theorem witness_CreateConfiguresAndClearsTheContext :
    (scenario.Inv ∧ scenario.Ready 0 ∧ scenario.cfg.zeroWidthReject = false) ∧
    (bitsNeeded (0x7FFFFFFFFFFFFFFF : Word).toNat < scenario.cfg.W ∧
      (1 : Word).toNat * bitsNeeded (0x7FFFFFFFFFFFFFFF : Word).toNat ≤ scenario.cfg.memBits) ∧
    (bitsNeeded (1 : Word).toNat < scenario.cfg.W ∧
      (65536 : Word).toNat * bitsNeeded (1 : Word).toNat ≤ scenario.cfg.memBits) ∧
    (bitsNeeded (0 : Word).toNat < scenario.cfg.W ∧
      (0xFFFFFFFFFFFFFFFF : Word).toNat * bitsNeeded (0 : Word).toNat ≤ scenario.cfg.memBits) := by decide

/-- A block that rejects width 0. -/
def rejecting : State := State.resetWith { Config.reference with zeroWidthReject := true }

theorem witness_ConfigurationErrorsChangeNothing :
    scenario.cfg.Legal ∧ scenario.Ready 0 ∧ rejecting.cfg.Legal ∧ rejecting.Ready 0 ∧
    rejecting.cfg.zeroWidthReject = true ∧ scenario.cfg.W ≤ bitsNeeded (0x8000000000000000 : Word).toNat ∧
    (¬ (scenario.cfg.zeroWidthReject = true ∧ (1 : Word) = 0) ∧ bitsNeeded (1 : Word).toNat < scenario.cfg.W ∧
      scenario.cfg.memBits < (65537 : Word).toNat * bitsNeeded (1 : Word).toNat) := by decide

theorem witness_SetitemWritesExactlyItsSlot :
    scenario.Inv ∧ scenario.Ready 0 ∧ (2 : Word).toNat < (scenario.ctx 0).cnt.toNat ∧
    (7 : Word).toNat ≤ 2 ^ (scenario.ctx 0).isz.toNat - 1 := by decide

theorem witness_ItemCommandsFaultOnIndexThenValue :
    scenario.Ready 0 ∧ (scenario.ctx 0).cnt.toNat ≤ (3 : Word).toNat ∧ (2 : Word).toNat < (scenario.ctx 0).cnt.toNat ∧
    2 ^ (scenario.ctx 0).isz.toNat - 1 < (8 : Word).toNat := by decide

theorem witness_GetitemReadsItsSlot : scenario.Ready 0 ∧ (2 : Word).toNat < (scenario.ctx 0).cnt.toNat := by decide

theorem witness_ItemsRoundTripAndAreIndependent :
    crossing.Inv ∧ crossing.Ready 0 ∧ (12 : Word).toNat < (crossing.ctx 0).cnt.toNat ∧
    (31 : Word).toNat ≤ 2 ^ (crossing.ctx 0).isz.toNat - 1 ∧ (13 : Word) ≠ 12 := by decide

theorem witness_GetitemsListsEveryItemInOrder :
    scenario.Ready 0 ∧ (2 : Word).toNat < (scenario.ctx 0).cnt.toNat := by decide

theorem witness_CopyDuplicatesTheSourceContext :
    scenario.Inv ∧ scenario.Ready 1 ∧ (0 : CtxNum).toNat < scenario.cfg.nCtx ∧ (1 : CtxNum).toNat < scenario.cfg.nCtx := by
  decide

theorem witness_CopiesAreIsolatedFromEachOther :
    scenario.Inv ∧ scenario.Ready 0 ∧ (1 : CtxNum).toNat < scenario.cfg.nCtx ∧ (0 : CtxNum) ≠ 1 ∧
    ∃ t, exec (.copy 1 0 0 0) scenario = .next t ∧
      (∃ u, exec (.setitem 1 2 3) t = .next u ∧ u.record = t.record) ∧
      (∃ u, exec (.wrblk 0 0 0) t = .next u ∧ u.record = t.record) ∧
      ∃ u, exec (.create 0 3 5) t = .next u ∧ u.record = t.record :=
  ⟨by decide, by decide, by decide, by decide, _, rfl, ⟨_, rfl, rfl⟩, ⟨_, rfl, rfl⟩, _, rfl, rfl⟩

theorem witness_InfoReadsTheConfiguration :
    scenario.Ready 0 ∧ scenario.Inv ∧ scenario.Ready 1 ∧ (scenario.ctx 1).tag = .empty := by decide

theorem witness_BsetAndBclrWriteExactlyOneBit :
    scenario.Inv ∧ scenario.Ready 0 ∧
    (8 : Word).toNat < (scenario.ctx 0).cnt.toNat * (scenario.ctx 0).isz.toNat := by decide

theorem witness_BitIndexesAtOrAboveTheCapacityFault :
    scenario.Ready 0 ∧ (scenario.ctx 0).cnt.toNat * (scenario.ctx 0).isz.toNat ≤ (9 : Word).toNat := by decide

theorem witness_WritingABitChangesOneBitOfOneItem :
    scenario.Inv ∧ scenario.Ready 0 ∧ (scenario.ctx 0).isz ≠ 0 ∧ (8 : Word).toNat < (scenario.ctx 0).cap := by decide

theorem witness_BtestAnswersTheBit :
    scenario.Ready 0 ∧ (8 : Word).toNat < (scenario.ctx 0).cnt.toNat * (scenario.ctx 0).isz.toNat := by decide

theorem witness_BtestIsABitOfGetitem :
    scenario.Ready 0 ∧ (scenario.ctx 0).isz ≠ 0 ∧ (8 : Word).toNat < (scenario.ctx 0).cap ∧
    (2 : Word).toNat = (8 : Word).toNat / (scenario.ctx 0).isz.toNat := by decide

theorem witness_RdblkReadsTheBlock :
    crossing.Inv ∧ crossing.Ready 0 ∧ (1 : Word).toNat < (crossing.ctx 0).nblk := by decide

theorem witness_WrblkWritesTheAddressableBitsOfTheBlock :
    crossing.Inv ∧ crossing.Ready 1 ∧ (1 : Word).toNat < (crossing.ctx 1).nblk := by decide

theorem witness_BlockIndexesAtOrAboveTheCountFault :
    crossing.Ready 0 ∧ (crossing.ctx 0).cnt.toNat * (crossing.ctx 0).isz.toNat ≤ 64 * (2 : Word).toNat ∧
    (scenario.ctx 1).cnt.toNat * (scenario.ctx 1).isz.toNat ≤ 64 * (0 : Word).toNat := by decide

/-- Both blocks of a context, and item 12, whose last bit alone lies in block 1. -/
theorem witness_BlocksAndItemsMeetAsTheSpecSays :
    0 + 1 < (crossing.ctx 0).nblk ∧ 1 + 1 = (crossing.ctx 0).nblk ∧ crossing.Inv ∧ crossing.Ready 0 ∧
    (1 : Word).toNat < (crossing.ctx 0).nblk ∧ 4 < (crossing.ctx 0).isz.toNat ∧
    (crossing.ctx 0).off 12 < 64 * (0 + 1) ∧
    64 * (0 + 1) < (crossing.ctx 0).off 12 + (crossing.ctx 0).isz.toNat := by decide

theorem witness_RdblkAfterWrblkGivesTheValidBits :
    crossing.Inv ∧ crossing.Ready 0 ∧ (1 : Word).toNat < (crossing.ctx 0).nblk := by decide

theorem witness_WritingBackABlockChangesNothing :
    crossing.Inv ∧ crossing.Ready 0 ∧ (0 : Word).toNat < (crossing.ctx 0).nblk := by decide

theorem witness_FinfoReadsTheFaultRecord : scenario.Inv ∧ scenario.record.fault = false := by decide

theorem witness_EmptyContextsFaultUntilCreated :
    scenario.Inv ∧ scenario.Ready 1 ∧ (scenario.ctx 1).tag = .empty ∧ (0 : CtxNum).toNat < scenario.cfg.nCtx := by decide

theorem witness_PseudoInstructionsDoAsTheSpecSays :
    scenario.Inv ∧ scenario.Ready 0 ∧ 63 < scenario.cfg.W ∧ ¬ (scenario.cfg.zeroWidthReject = true ∧ 63 = 0) ∧
    (1040 : Word).toNat * 63 ≤ scenario.cfg.memBits ∧ 63 < 64 ∧ 1 < 2 := by decide

/-- A host about to restore context 0 of `crossing` into context 1. -/
def restoring : State := { scenario with inbox := requestsOf ((crossing.ctx 0).save.restore 1) ++ [.reset] }

theorem witness_RestoreRebuildsTheSavedContext :
    restoring.Inv ∧ restoring.Ready 1 ∧ (crossing.ctx 0).Inv restoring.cfg ∧ (crossing.ctx 0).tag = .configured ∧
    restoring.inbox = requestsOf (.create 1 (crossing.ctx 0).cnt (BitVec.ofNat 64 (2 ^ (crossing.ctx 0).isz.toNat - 1)) ::
      (List.range (crossing.ctx 0).nblk).map fun k =>
        .wrblk 1 (BitVec.ofNat 64 k) (blockRead (crossing.ctx 0).mem k)) ++ [.reset] ∧
    ∃ u, exec (.create 1 20 31) restoring = .next u :=
  ⟨by decide, by decide, by decide, by decide, by decide, _, rfl⟩

/-- 95_test_vectors.md P3, P5: the sequence that restores context 0 of `crossing`. -/
theorem test_restore_sequence : (crossing.ctx 0).save.restore 1 =
    [.create 1 20 31, .wrblk 1 0 0xF000000000000000, .wrblk 1 1 0x0000000A80000001] := by decide

end Sys2Proof.Tests
end

section
/-! Proofs of the family 00_scope.md: the width derivation (R10, R11) and the reset state (R6, R35). -/

namespace Sys2Proof.Machine

/-! ### The width derivation -/

@[simp] theorem bitsNeeded_zero : bitsNeeded 0 = 0 := rfl

theorem bitsNeeded_of_ne_zero {v : Nat} (hv : v ≠ 0) : bitsNeeded v = Nat.log2 v + 1 := if_neg hv

/-- A value fits in `n` bits exactly when it needs at most `n` of them; every fact about `bitsNeeded` below follows. -/
theorem bitsNeeded_le_iff {v n : Nat} : bitsNeeded v ≤ n ↔ v < 2 ^ n := by
  rcases eq_or_ne v 0 with rfl | hv
  · simp
  · rw [bitsNeeded_of_ne_zero hv, Nat.succ_le_iff, Nat.log2_lt hv]

theorem lt_bitsNeeded_iff {v n : Nat} : n < bitsNeeded v ↔ 2 ^ n ≤ v := by
  rw [← not_le, bitsNeeded_le_iff, not_lt]

/-- The two bounds of 00_scope.md R10 pin the number of digits of a positive value. -/
theorem bitsNeeded_eq_iff {v n : Nat} (hv : 1 ≤ v) : bitsNeeded v = n ↔ 2 ^ (n - 1) ≤ v ∧ v < 2 ^ n := by
  have hpos : 0 < bitsNeeded v := lt_bitsNeeded_iff.mpr hv
  rw [← lt_bitsNeeded_iff, ← bitsNeeded_le_iff]
  omega

theorem bitsNeeded_eq_clog (v : Nat) : bitsNeeded v = Nat.clog 2 (v + 1) :=
  eq_of_forall_ge_iff fun n => by rw [bitsNeeded_le_iff, Nat.clog_le_iff_le_pow one_lt_two, Nat.succ_le_iff]

theorem bitsNeeded_maxItem (z : Nat) : bitsNeeded (maxItem z) = z :=
  eq_of_forall_ge_iff fun n => by
    have hpos : 0 < 2 ^ z := Nat.two_pow_pos z
    calc bitsNeeded (maxItem z) ≤ n
      _ ↔ 2 ^ z - 1 < 2 ^ n := bitsNeeded_le_iff
      _ ↔ 2 ^ z ≤ 2 ^ n := by omega
      _ ↔ z ≤ n := Nat.pow_le_pow_iff_right one_lt_two

theorem Context.item_le_maxItem (x : Context) (i : Nat) : x.item i ≤ maxItem x.isz.toNat :=
  Nat.le_sub_one_of_lt (x.item_lt i)

/-! ### The reset state -/

/-- A context after reset meets the invariant: it lists no bit, and width, count and capacity are 0 (10_state.md R24). -/
theorem Context.empty_inv {cfg : Config} (hcfg : cfg.Legal) : Context.empty.Inv cfg := by
  have hwidth : (0 : Nat) < cfg.W := Nat.lt_of_lt_of_le Nat.two_pos hcfg.1
  exact ⟨Memory.clear_wf, nofun, fun _ => ⟨rfl, rfl⟩, hwidth, Nat.zero_le _, nofun, fun b _ _ => Memory.clear_get b⟩

theorem FaultRecord.clear_inv : FaultRecord.clear.Inv := ⟨fun _ => rfl, nofun⟩

theorem State.resetWith_inv {cfg : Config} (hcfg : cfg.Legal) : (State.resetWith cfg).Inv :=
  ⟨hcfg, List.length_replicate, fun _ hx => List.eq_of_mem_replicate hx ▸ Context.empty_inv hcfg,
    FaultRecord.clear_inv⟩

theorem Config.reference_legal : Config.reference.Legal := by decide

/-! ### The statements -/

/-- Settles O27, from the one fact that a value fits in `n` bits exactly when it is below `2 ^ n`. -/
theorem bitsNeededIsTheNumberOfBinaryDigits : Obligations.BitsNeededIsTheNumberOfBinaryDigits :=
  ⟨bitsNeeded_zero, fun _ _ => bitsNeeded_eq_iff, bitsNeeded_eq_clog, bitsNeeded_maxItem 64⟩

/-- Settles O28: the width of the largest value, and the bound on what a slot reads as. -/
theorem maxItemNeedsExactlyItsWidth : Obligations.MaxItemNeedsExactlyItsWidth :=
  ⟨fun z => ⟨rfl, bitsNeeded_maxItem z⟩, Context.item_le_maxItem⟩

/-- Settles O19: every part of the reset state meets its part of the invariant. -/
theorem resetMeetsTheInvariant : Obligations.ResetMeetsTheInvariant :=
  ⟨State.resetWith_inv Config.reference_legal, fun _ => State.resetWith_inv⟩

end Sys2Proof.Machine
end

section
/-! Proofs of the family 10_state.md: what a step can do, and from it the frames of the commands (R34), the output
`fault_o` (R29), the invariant (R20 to R28) and the reset values (R35). -/

namespace Sys2Proof.Machine

/-! ### What a step can do -/

/-- `StepEffect s t`: a step from `s` can end in `t`. One constructor for each form of a step: the block holds its state
(60_exceptions.md R157), takes a reset (70_reset_and_hazards.md R170, R175), or answers a request, where a fault is
entered and a context written only when no fault is recorded (60_exceptions.md R143, R145). Which request `r'` the record
then holds is left open: no statement of this family needs it. -/
inductive StepEffect (s : State) : State → Prop where
  | idle (hin : s.inbox = []) : StepEffect s s
  | reset (es : List PortEvent) (hin : s.inbox = .reset :: es ∨ ∃ r, s.inbox = .resetDuring r :: es) :
      StepEffect s (State.resetBlock { s with inbox := es })
  | answer (r : Request) (es : List PortEvent) (hin : s.inbox = .request r :: es) (st : Status) (d : List Word)
      (hst : ∀ f, st ≠ .fault f) : StepEffect s (State.reply { s with inbox := es } st d)
  | fault (r : Request) (es : List PortEvent) (hin : s.inbox = .request r :: es) (hf : s.record.fault = false)
      (f : FaultCode) (r' : Request) :
      StepEffect s (State.reply { s with inbox := es, record := faultRecordOf f r' } (.fault f) [])
  | write (r : Request) (es : List PortEvent) (hin : s.inbox = .request r :: es) (hf : s.record.fault = false)
      (i : Instr) (c : CtxNum) (x : Context) (hw : Writes { s with inbox := es } i c x) :
      StepEffect s ((State.setCtx { s with inbox := es } c x).reply .ok [])

theorem step_idle {s : State} (hin : s.inbox = []) : step s = .next s := by
  simp [step, takeEvent_nil hin]

theorem step_reset {s : State} {es : List PortEvent}
    (hin : s.inbox = .reset :: es ∨ ∃ r, s.inbox = .resetDuring r :: es) :
    step s = .next (State.resetBlock { s with inbox := es }) := by
  obtain hin | ⟨r, hin⟩ := hin <;> simp [step, takeEvent_cons hin]

theorem step_undecodable {s : State} {r : Request} {es : List PortEvent} {e : Reject}
    (hin : s.inbox = .request r :: es) (hr : decode r = .error e) :
    step s = undecodable r { s with inbox := es } := by
  simp [step, takeEvent_cons hin, hr]

theorem step_command {s : State} {r : Request} {es : List PortEvent} {i : Instr}
    (hin : s.inbox = .request r :: es) (hr : decode r = .ok i) : step s = exec i { s with inbox := es } := by
  simp [step, takeEvent_cons hin, hr]

theorem undecodable_effect {s t : State} {r : Request} {es : List PortEvent} (hin : s.inbox = .request r :: es)
    (h : undecodable r { s with inbox := es } = .next t) : StepEffect s t := by
  rw [undecodable_eq] at h
  split at h
  · cases h
    exact .answer r es hin .faulted [] nofun
  · next hf =>
    cases h
    exact .fault r es hin (Bool.eq_false_of_not_eq_true hf) .illegal r

theorem exec_effect {s t : State} {r : Request} {es : List PortEvent} (i : Instr) (hin : s.inbox = .request r :: es)
    (h : exec i { s with inbox := es } = .next t) : StepEffect s t := by
  obtain ⟨st, d, he, hst, -⟩ | ⟨hf, f, he⟩ | ⟨hf, -, c, x, -, hw, he⟩ := exec_shape i { s with inbox := es }
  · cases he.symm.trans h
    exact .answer r es hin st d hst
  · cases he.symm.trans h
    exact .fault r es hin hf f (encode i)
  · cases he.symm.trans h
    exact .write r es hin hf i c x hw

/-- Every step has one of these forms. -/
theorem step_effect {s t : State} (h : step s = .next t) : StepEffect s t := by
  cases hin : s.inbox with
  | nil =>
    cases (step_idle hin).symm.trans h
    exact .idle hin
  | cons e es =>
    cases e with
    | request r =>
      cases hr : decode r with
      | error e => exact undecodable_effect hin (step_undecodable hin hr ▸ h)
      | ok i => exact exec_effect i hin (step_command hin hr ▸ h)
    | reset =>
      cases (step_reset (.inl hin)).symm.trans h
      exact .reset es (.inl hin)
    | resetDuring r =>
      cases (step_reset (.inr ⟨r, hin⟩)).symm.trans h
      exact .reset es (.inr ⟨r, hin⟩)

/-! ### Every step keeps the invariant -/

theorem FaultCode.code_mem (f : FaultCode) : f.code ∈ faultCodes := by
  cases f <;> decide

theorem faultRecordOf_inv (f : FaultCode) (r : Request) : (faultRecordOf f r).Inv :=
  ⟨nofun, fun _ => f.code_mem⟩

/-- Every context number reads a context that meets the invariant, one with no context too (log 15). -/
theorem State.Inv.ctx_inv {s : State} (h : s.Inv) (c : CtxNum) : (s.ctx c).Inv s.cfg := by
  by_cases hc : c.toNat < s.cfg.nCtx
  · exact h.ctx hc
  · have hempty : s.ctx c = Context.empty := by simp [State.ctx, h.2.1, hc]
    exact hempty ▸ Context.empty_inv h.1

theorem createdContext_isz_toNat (n : Word) {z : Nat} (hz : z < 64) : (createdContext n z).isz.toNat = z :=
  Nat.mod_eq_of_lt hz

/-- The context that an accepted CREATE leaves: its width fits 6 bits because it is below `W`, and its storage is clear. -/
theorem createdContext_inv {cfg : Config} (hcfg : cfg.Legal) {n : Word} {z : Nat}
    (hzero : ¬ (cfg.zeroWidthReject = true ∧ z = 0)) (hz : z < cfg.W) (hcap : n.toNat * z ≤ cfg.memBits) :
    (createdContext n z).Inv cfg := by
  have hisz : (createdContext n z).isz.toNat = z := createdContext_isz_toNat n (hz.trans_le hcfg.2.1)
  have hcap' : (createdContext n z).cap ≤ cfg.memBits := by rwa [Context.cap, hisz]
  refine ⟨Memory.clear_wf, nofun, nofun, hisz.symm ▸ hz, hcap', fun hrej _ h0 => hzero ⟨hrej, ?_⟩,
    fun b _ _ => Memory.clear_get b⟩
  rw [← hisz, h0]
  rfl

/-- Setting a bit below the capacity keeps the invariant of the context. -/
theorem Context.Inv.setBit {cfg : Config} {x : Context} (h : x.Inv cfg) {b : Nat} (hb : b < x.cap) (v : Bool) :
    ({ x with mem := x.mem.set b v } : Context).Inv cfg := by
  have ⟨hwf, hbelow, _, _, hcap, _, _⟩ := h
  exact h.setMem (x.mem.set_wf hwf b v) (Memory.set_below v hbelow (by omega))
    fun a ha => x.mem.get_set_other v (by omega)

/-- Writing a slot of the context keeps its invariant. -/
theorem Context.Inv.writeItem {cfg : Config} {x : Context} (h : x.Inv cfg) {i : Nat} (hi : i < x.cnt.toNat) (v : Word) :
    ({ x with mem := memWrite x.mem (x.off i) x.isz.toNat v } : Context).Inv cfg := by
  have ⟨hwf, hbelow, _, _, hcap, _, _⟩ := h
  have hslot := x.slot_end_le_cap hi
  refine h.setMem (memWrite_wf _ hwf _ _ v) (memWrite_below v hbelow (by omega)) fun b hb => ?_
  rw [memWrite_get _ hwf, if_neg (by omega)]

/-- Writing a block keeps the invariant of the context: the write drops the bits at or above the capacity. -/
theorem Context.Inv.writeBlock {cfg : Config} {x : Context} (h : x.Inv cfg) (k : Nat) (v : Word) :
    ({ x with mem := blockWrite x.mem x.cap k v } : Context).Inv cfg := by
  have ⟨hwf, hbelow, _, _, hcap, _, _⟩ := h
  refine h.setMem (blockWrite_wf _ hwf _ k v) (writeBelow_below v hbelow hcap) fun b hb => ?_
  rw [blockWrite_get _ hwf, if_neg (by omega)]

/-- Whatever a command writes to a context meets the invariant. -/
theorem Writes.inv {s : State} (hs : s.Inv) {i : Instr} {c : CtxNum} {x : Context} (h : Writes s i c x) :
    x.Inv s.cfg := by
  cases h with
  | create c n m hz hw hc => exact createdContext_inv hs.1 hz hw hc
  | setitem c i v hi hv => exact (hs.ctx_inv c).writeItem hi v
  | copy d c a b hc => exact hs.ctx_inv c
  | bset c p a hp => exact (hs.ctx_inv c).setBit hp true
  | bclr c p a hp => exact (hs.ctx_inv c).setBit hp false
  | wrblk c k v hk => exact (hs.ctx_inv c).writeBlock k.toNat v

/-- The invariant does not speak of what the host will do. -/
theorem State.Inv.withInbox {s : State} (h : s.Inv) (es : List PortEvent) : State.Inv { s with inbox := es } := h

theorem State.Inv.withRecord {s : State} (h : s.Inv) {f : FaultRecord} (hf : f.Inv) : State.Inv { s with record := f } := by
  obtain ⟨hcfg, hlen, hctxs, -⟩ := h
  exact ⟨hcfg, hlen, hctxs, hf⟩

/-- The reset input puts contexts and record where `State.resetWith` has them. -/
theorem State.Inv.resetBlock {s : State} (h : s.Inv) : s.resetBlock.Inv := State.resetWith_inv h.1

/-- Settles O20: each form of a step keeps the invariant. -/
theorem everyStepKeepsTheInvariant : Obligations.EveryStepKeepsTheInvariant := by
  intro s t hs h
  cases step_effect h with
  | idle hin => exact hs
  | reset es hin => exact (hs.withInbox es).resetBlock
  | answer r es hin st d hst => exact (hs.withInbox es).reply st d
  | fault r es hin hf f r' => exact ((hs.withInbox es).withRecord (faultRecordOf_inv f r')).reply _ _
  | write r es hin hf i c x hw => exact ((hs.withInbox es).setCtx c (hw.inv (hs.withInbox es))).reply _ _

/-! ### Bits outside the contexts are never observed -/

/-- Two memories hold the same bits below an address. -/
def Memory.AgreeBelow (bound : Nat) (m m' : Memory) : Prop := ∀ b < bound, m'.get b = m.get b

namespace Memory.AgreeBelow

variable {bound : Nat} {m m' : Memory} (h : AgreeBelow bound m m')
include h

theorem memRead_eq {a n : Nat} (han : a + n ≤ bound) : memRead m' a n = memRead m a n :=
  memRead_congr fun j hj => h (a + j) (by omega)

theorem set (hm : m.wf) (hm' : m'.wf) (a : Nat) (v : Bool) : AgreeBelow bound (m.set a v) (m'.set a v) :=
  fun b hb => by rw [m.get_set hm, m'.get_set hm', h b hb]

theorem memWrite (hm : m.wf) (hm' : m'.wf) (a n : Nat) (v : Word) :
    AgreeBelow bound (memWrite m a n v) (memWrite m' a n v) :=
  fun b hb => by rw [memWrite_get m hm, memWrite_get m' hm', h b hb]

theorem blockWrite (hm : m.wf) (hm' : m'.wf) (cap k : Nat) (v : Word) :
    AgreeBelow bound (blockWrite m cap k v) (blockWrite m' cap k v) :=
  fun b hb => by rw [blockWrite_get m hm, blockWrite_get m' hm', h b hb]

end Memory.AgreeBelow

namespace Context.SameVisible

theorem refl (x : Context) : x.SameVisible x := ⟨rfl, rfl, rfl, fun _ _ => rfl⟩

variable {x y : Context} (h : x.SameVisible y)
include h

theorem tag_eq : y.tag = x.tag := h.1

theorem isz_eq : y.isz = x.isz := h.2.1

theorem cnt_eq : y.cnt = x.cnt := h.2.2.1

theorem mem_agree : Memory.AgreeBelow (64 * x.nblk) x.mem y.mem := h.2.2.2

theorem cap_eq : y.cap = x.cap := by rw [Context.cap, Context.cap, h.cnt_eq, h.isz_eq]

theorem nblk_eq : y.nblk = x.nblk := by rw [Context.nblk, Context.nblk, h.cap_eq]

theorem off_eq (i : Nat) : y.off i = x.off i := by rw [Context.off, Context.off, h.isz_eq]

/-- A slot of an item that exists lies inside the blocks. -/
theorem item_eq {i : Nat} (hi : i < x.cnt.toNat) : y.item i = x.item i := by
  have hslot := x.slot_end_le_cap hi
  have hcap := x.cap_le_blocks
  rw [Context.item, h.off_eq, h.isz_eq]
  exact h.mem_agree.memRead_eq (by omega)

theorem items_eq : y.items = x.items := by
  rw [Context.items, Context.items, h.cnt_eq]
  refine List.map_congr_left fun i hi => ?_
  rw [h.item_eq (List.mem_range.mp hi)]

theorem get_eq {b : Nat} (hb : b < x.cap) : y.mem.get b = x.mem.get b :=
  h.mem_agree b (hb.trans_le x.cap_le_blocks)

theorem blockRead_eq {k : Nat} (hk : k < x.nblk) : blockRead y.mem k = blockRead x.mem k := by
  have hend : 64 * k + 64 ≤ 64 * x.nblk := by omega
  exact congrArg (BitVec.ofNat 64) (h.mem_agree.memRead_eq hend)

theorem withMem {m m' : Memory} (hm : Memory.AgreeBelow (64 * x.nblk) m m') :
    Context.SameVisible { x with mem := m } { y with mem := m' } :=
  ⟨h.tag_eq, h.isz_eq, h.cnt_eq, hm⟩

end Context.SameVisible

/-- Two results are next states that agree on all but storage bits outside the contexts. -/
def SameResult (r r' : Result) : Prop := ∃ s t, r = .next s ∧ r' = .next t ∧ SameVisible s t

/-- Branches taken alike. -/
theorem SameResult.ite {p p' : Prop} [Decidable p] [Decidable p'] {q q' r r' : Result} (hp : p' ↔ p)
    (hq : p → SameResult q q') (hr : ¬ p → SameResult r r') :
    SameResult (if p then q else r) (if p' then q' else r') := by
  by_cases h : p
  · rw [if_pos h, if_pos (hp.mpr h)]
    exact hq h
  · rw [if_neg h, if_neg (hp.not.mpr h)]
    exact hr h

namespace SameVisible

variable {s t : State} (h : SameVisible s t)
include h

theorem cfg_eq : t.cfg = s.cfg := h.1

theorem record_eq : t.record = s.record := h.2.1

theorem inbox_eq : t.inbox = s.inbox := h.2.2.1

theorem ctx (c : CtxNum) : (s.ctx c).SameVisible (t.ctx c) := h.2.2.2.2.2 c

theorem withInbox (es : List PortEvent) : SameVisible { s with inbox := es } { t with inbox := es } := by
  obtain ⟨hcfg, hrec, -, hout, hlen, hctx⟩ := h
  exact ⟨hcfg, hrec, rfl, hout, hlen, hctx⟩

theorem withRecord (f : FaultRecord) : SameVisible { s with record := f } { t with record := f } := by
  obtain ⟨hcfg, -, hin, hout, hlen, hctx⟩ := h
  exact ⟨hcfg, rfl, hin, hout, hlen, hctx⟩

theorem reply (st : Status) (d : List Word) : SameVisible (s.reply st d) (t.reply st d) := by
  obtain ⟨hcfg, hrec, hin, hout, hlen, hctx⟩ := h
  exact ⟨hcfg, hrec, hin, by simp [hout], hlen, hctx⟩

theorem setCtx (c : CtxNum) {x y : Context} (hxy : x.SameVisible y) :
    SameVisible (s.setCtx c x) (t.setCtx c y) := by
  obtain ⟨hcfg, hrec, hin, hout, hlen, hctx⟩ := h
  refine ⟨hcfg, hrec, hin, hout, by simpa using hlen, fun c' => ?_⟩
  by_cases hc' : c' = c
  · subst hc'
    by_cases hl : c'.toNat < s.ctxs.length
    · rwa [s.setCtx_ctx_same c' x hl, t.setCtx_ctx_same c' y (hlen ▸ hl)]
    · have hs : (s.setCtx c' x).ctx c' = Context.empty := by simp [State.ctx, hl]
      have ht : (t.setCtx c' y).ctx c' = Context.empty := by simp [State.ctx, hlen, hl]
      exact hs ▸ ht ▸ .refl Context.empty
  · rw [s.setCtx_ctx_other x hc', t.setCtx_ctx_other y hc']
    exact hctx c'

theorem setMem (c : CtxNum) {m m' : Memory} (hm : Memory.AgreeBelow (64 * (s.ctx c).nblk) m m') :
    SameVisible (s.setMem c m) (t.setMem c m') :=
  h.setCtx c ((h.ctx c).withMem hm)

theorem resetBlock : SameVisible s.resetBlock t.resetBlock := by
  obtain ⟨hcfg, -, hin, hout, -, -⟩ := h
  refine ⟨hcfg, rfl, hin, hout, by simp [hcfg], fun c => ?_⟩
  rw [State.resetBlock_ctx, State.resetBlock_ctx]
  exact .refl _

/-! #### The shared operations -/

theorem respond (st : Status) (d : List Word) : SameResult (respond st d s) (respond st d t) :=
  ⟨_, _, rfl, rfl, h.reply st d⟩

/-- The same data, computed from either state. -/
theorem respond_data (st : Status) {d d' : List Word} (hd : d' = d) :
    SameResult (Machine.respond st d s) (Machine.respond st d' t) := hd ▸ h.respond st d

theorem raiseFault (f : FaultCode) (r : Request) : SameResult (raiseFault f r s) (raiseFault f r t) :=
  (h.withRecord (faultRecordOf f r)).respond (.fault f) []

theorem commonChecks (r : Request) (wf : Bool) {rule rule' : Result} (hrule : SameResult rule rule') :
    SameResult (commonChecks r wf s rule) (commonChecks r wf t rule') :=
  .ite (by rw [h.record_eq]) (fun _ => h.respond .faulted []) fun _ =>
    .ite Iff.rfl (fun _ => hrule) fun _ => h.raiseFault .illegal r

theorem guarded (i : Instr) {rule rule' : Result} (hrule : SameResult rule rule') :
    SameResult (guarded i s rule) (guarded i t rule') := by
  rw [Machine.guarded, Machine.guarded, h.cfg_eq]
  exact h.commonChecks _ _ hrule

theorem undecodable (r : Request) : SameResult (undecodable r s) (undecodable r t) :=
  h.commonChecks r false (h.raiseFault .illegal r)

theorem withBitIndex (i : Instr) (c : CtxNum) (b : Word) {rule rule' : Result}
    (hrule : b.toNat < (s.ctx c).cap → SameResult rule rule') :
    SameResult (withBitIndex i c b s rule) (withBitIndex i c b t rule') :=
  .ite (by rw [(h.ctx c).cap_eq]) (fun _ => h.raiseFault .bitIndex _) fun hb => hrule (not_le.mp hb)

theorem withBlockIndex (i : Instr) (c : CtxNum) (k : Word) {rule rule' : Result}
    (hrule : k.toNat < (s.ctx c).nblk → SameResult rule rule') :
    SameResult (withBlockIndex i c k s rule) (withBlockIndex i c k t rule') :=
  .ite (by rw [(h.ctx c).nblk_eq]) (fun _ => h.raiseFault .blockIndex _) fun hk => hrule (not_le.mp hk)

/-! #### Commands, steps and runs -/

/-- A command reads no bit at or above `64 * nblk`, and what it writes below does not depend on one. -/
theorem exec (hs : s.Inv) (ht : t.Inv) (i : Instr) : SameResult (exec i s) (exec i t) := by
  have hwf (c : CtxNum) : (s.ctx c).mem.wf := (hs.ctx_inv c).1
  have hwf' (c : CtxNum) : (t.ctx c).mem.wf := (ht.ctx_inv c).1
  cases i with
  | create c n m =>
    exact h.guarded _ <|
      .ite (by rw [h.cfg_eq]) (fun _ => h.respond .cfgZeroWidth []) fun _ =>
      .ite (by rw [h.cfg_eq]) (fun _ => h.respond .cfgWidth []) fun _ =>
      .ite (by rw [h.cfg_eq]) (fun _ => h.respond .cfgCapacity []) fun _ =>
      (h.setCtx c (.refl _)).respond .ok []
  | setitem c i v =>
    have hc := h.ctx c
    refine h.guarded _ <|
      .ite (by rw [hc.cnt_eq]) (fun _ => h.raiseFault .index _) fun _ =>
      .ite (by rw [hc.isz_eq]) (fun _ => h.raiseFault .value _) fun _ =>
      SameVisible.respond (h.setMem c ?_) .ok []
    rw [hc.off_eq, hc.isz_eq]
    exact hc.mem_agree.memWrite (hwf c) (hwf' c) _ _ v
  | getitem c i b =>
    have hc := h.ctx c
    refine h.guarded _ <|
      .ite (by rw [hc.cnt_eq]) (fun _ => h.raiseFault .index _) fun hi => h.respond_data .ok ?_
    rw [hc.item_eq (not_le.mp hi)]
  | getitems c a b => exact h.guarded _ (h.respond_data .ok (h.ctx c).items_eq)
  | copy d c a b => exact h.guarded _ ((h.setCtx d (h.ctx c)).respond .ok [])
  | info c a b =>
    have hc := h.ctx c
    exact h.guarded _ (h.respond_data .ok (by rw [hc.tag_eq, hc.isz_eq, hc.cnt_eq]))
  | bset c p a =>
    exact h.guarded _ <| h.withBitIndex _ c p fun _ =>
      (h.setMem c ((h.ctx c).mem_agree.set (hwf c) (hwf' c) _ true)).respond .ok []
  | bclr c p a =>
    exact h.guarded _ <| h.withBitIndex _ c p fun _ =>
      (h.setMem c ((h.ctx c).mem_agree.set (hwf c) (hwf' c) _ false)).respond .ok []
  | btest c p a =>
    refine h.guarded _ <| h.withBitIndex _ c p fun hp => h.respond_data .ok ?_
    rw [State.bit, State.bit, (h.ctx c).get_eq hp]
  | rdblk c k a =>
    refine h.guarded _ <| h.withBlockIndex _ c k fun hk => h.respond_data .ok ?_
    rw [(h.ctx c).blockRead_eq hk]
  | wrblk c k v =>
    refine h.guarded _ <| h.withBlockIndex _ c k fun _ => SameVisible.respond (h.setMem c ?_) .ok []
    rw [(h.ctx c).cap_eq]
    exact (h.ctx c).mem_agree.blockWrite (hwf c) (hwf' c) _ _ v
  | finfo a b => exact h.guarded _ (h.respond_data .ok (by rw [h.record_eq]))

theorem step (hs : s.Inv) (ht : t.Inv) : SameResult (step s) (step t) := by
  cases hin : s.inbox with
  | nil => exact ⟨s, t, step_idle hin, step_idle (h.inbox_eq.trans hin), h⟩
  | cons e es =>
    have hin' : t.inbox = e :: es := h.inbox_eq.trans hin
    cases e with
    | request r =>
      cases hr : decode r with
      | error e =>
        rw [step_undecodable hin hr, step_undecodable hin' hr]
        exact (h.withInbox es).undecodable r
      | ok i =>
        rw [step_command hin hr, step_command hin' hr]
        exact (h.withInbox es).exec (hs.withInbox es) (ht.withInbox es) i
    | reset => exact ⟨_, _, step_reset (.inl hin), step_reset (.inl hin'), (h.withInbox es).resetBlock⟩
    | resetDuring r =>
      exact ⟨_, _, step_reset (.inr ⟨r, hin⟩), step_reset (.inr ⟨r, hin'⟩), (h.withInbox es).resetBlock⟩

end SameVisible

/-- Settles O21, by induction on the length of the run: both states take the same step and both keep the invariant. -/
theorem bitsOutsideTheContextsAreNeverObserved : Obligations.BitsOutsideTheContextsAreNeverObserved := by
  intro n
  induction n with
  | zero => exact fun s t _ _ h => ⟨s, t, rfl, rfl, h⟩
  | succ n ih =>
    intro s t hs ht h
    obtain ⟨s₁, t₁, hs₁, ht₁, h₁⟩ := h.step hs ht
    rw [run_succ n hs₁, run_succ n ht₁]
    exact ih s₁ t₁ (everyStepKeepsTheInvariant s s₁ hs hs₁) (everyStepKeepsTheInvariant t t₁ ht ht₁) h₁

/-! ### The output `fault_o` -/

/-- The codes of faults belong to no other status (60_exceptions.md R140). -/
theorem Status.code_not_mem_faultCodes {st : Status} (hst : ∀ f, st ≠ .fault f) : st.code ∉ faultCodes := by
  cases st with
  | fault f => exact absurd rfl (hst f)
  | ok | cfgWidth | cfgCapacity | cfgZeroWidth | faulted => decide

/-- A step that answers a fault code, with no fault recorded before it, records a fault. -/
theorem StepEffect.fault_of_answer {s t : State} (h : StepEffect s t) {code : BitVec 8} (hcode : code ∈ faultCodes)
    (hout : t.outbox = s.outbox ++ [{ status := code, data := [] }]) : s.record.fault = false → t.record.fault = true := by
  cases h with
  | idle hin => simp at hout
  | reset es hin => simp at hout
  | answer r es hin st d hst =>
    obtain ⟨rfl, -⟩ : st.code = code ∧ d = [] := by simpa using hout
    exact absurd hcode (Status.code_not_mem_faultCodes hst)
  | fault r es hin hf f r' => exact fun _ => rfl
  | write r es hin hf i c x hw =>
    obtain rfl : Status.ok.code = code := by simpa using hout
    exact absurd hcode (Status.code_not_mem_faultCodes (st := .ok) nofun)

/-- A step that records a fault where none was answers the code it records. -/
theorem StepEffect.answer_of_rise {s t : State} (h : StepEffect s t) (hs : s.record.fault = false)
    (ht : t.record.fault = true) :
    ∃ code ∈ faultCodes, t.outbox = s.outbox ++ [{ status := code, data := [] }] ∧ t.record.fcode = code := by
  cases h with
  | idle hin => exact absurd (hs.symm.trans ht) nofun
  | reset es hin => exact absurd ht nofun
  | answer r es hin st d hst => exact absurd (hs.symm.trans ht) nofun
  | fault r es hin hf f r' => exact ⟨f.code, f.code_mem, rfl, rfl⟩
  | write r es hin hf i c x hw => exact absurd (hs.symm.trans ht) nofun

/-- A step that clears the fault takes a reset. -/
theorem StepEffect.reset_of_fall {s t : State} (h : StepEffect s t) (hs : s.record.fault = true)
    (ht : t.record.fault = false) : ∃ es, s.inbox = .reset :: es ∨ ∃ r, s.inbox = .resetDuring r :: es := by
  cases h with
  | idle hin => exact absurd (hs.symm.trans ht) nofun
  | reset es hin => exact ⟨es, hin⟩
  | answer r es hin st d hst => exact absurd (hs.symm.trans ht) nofun
  | fault r es hin hf f r' => exact absurd (hs.symm.trans hf) nofun
  | write r es hin hf i c x hw => exact absurd (hs.symm.trans hf) nofun

/-- Settles O13: `fault_o` is `FAULT`, and each form of a step moves it as R29 and R150 say. -/
theorem faultOutputRisesOnAFaultAndFallsAtReset : Obligations.FaultOutputRisesOnAFaultAndFallsAtReset := by
  refine ⟨fun _ => rfl, fun s t h => ?_⟩
  have heff := step_effect h
  exact ⟨fun code hcode hf hout => ⟨hf, heff.fault_of_answer hcode hout hf⟩, heff.answer_of_rise, heff.reset_of_fall⟩

/-! ### What a command changes -/

/-- Settles O22: the one context that a command writes is the one its CTX names. -/
theorem commandsChangeOnlyTheirOwnContext : Obligations.CommandsChangeOnlyTheirOwnContext := by
  intro i s
  obtain ⟨st, d, he, -, -⟩ | ⟨-, f, he⟩ | ⟨-, -, c, x, -, hw, he⟩ := exec_shape i s
  · exact ⟨_, he, rfl, rfl, rfl, fun _ _ => rfl⟩
  · exact ⟨_, he, rfl, rfl, rfl, fun _ _ => rfl⟩
  · refine ⟨_, he, rfl, rfl, List.length_set, fun c' hc' => ?_⟩
    have hne : c' ≠ c := fun heq => hc' (heq ▸ hw.target)
    exact s.setCtx_ctx_other x hne

/-- A command that does not configure a context writes its storage alone. -/
theorem Writes.storage_only {s : State} {i : Instr} {c : CtxNum} {x : Context} (h : Writes s i c x)
    (hi : configures i = false) : ∃ m, x = { s.ctx c with mem := m } := by
  cases h with
  | create c n m hz hw hc => exact absurd hi nofun
  | copy d c a b hc => exact absurd hi nofun
  | setitem c i v hi hv => exact ⟨_, rfl⟩
  | bset c p a hp => exact ⟨_, rfl⟩
  | bclr c p a hp => exact ⟨_, rfl⟩
  | wrblk c k v hk => exact ⟨_, rfl⟩

/-- Settles O23: what the other ten commands write is storage, which holds neither tag, width nor count. -/
theorem onlyCreateAndCopyConfigureContexts : Obligations.OnlyCreateAndCopyConfigureContexts := by
  intro i s t hi h
  obtain ⟨st, d, he, -, -⟩ | ⟨-, f, he⟩ | ⟨-, -, c, x, -, hw, he⟩ := exec_shape i s
  · cases he.symm.trans h
    exact fun _ => ⟨rfl, rfl, rfl⟩
  · cases he.symm.trans h
    exact fun _ => ⟨rfl, rfl, rfl⟩
  · cases he.symm.trans h
    obtain ⟨m, rfl⟩ := hw.storage_only hi
    obtain ⟨-, -, -, -, hctx⟩ := s.setMem_onlyStorageDiffers c m
    exact hctx

/-! ### The values after reset -/

@[simp] theorem State.resetWith_ctx (cfg : Config) (c : CtxNum) : (State.resetWith cfg).ctx c = Context.empty :=
  (State.resetWith cfg).resetBlock_ctx c

/-- Settles O25: every context number reads the EMPTY context, and the other fields are the table's. -/
theorem resetLeavesTheValuesOfTheSpec : Obligations.ResetLeavesTheValuesOfTheSpec := by
  refine ⟨fun cfg c => ?_, rfl⟩
  rw [State.resetWith_ctx]
  exact ⟨rfl, rfl, rfl, List.length_replicate, rfl, rfl⟩

end Sys2Proof.Machine
end

section
/-! Proofs of the family 20_memory.md: item addressing (R41, R42), a run of requests as the fold of its commands (R54), and
that reads and repeated commands change nothing (R51). -/

namespace Sys2Proof

/-- The decoder takes the encoder's word apart again (30_encoding.md R63 to R65). -/
theorem decode_encode (i : Instr) : decode (encode i) = .ok i := by
  cases i with
  | copy d c a b => simp [decode, encode]
  | finfo a b => simp [decode, encode, decodeFinfo]
  | create | setitem | getitem | getitems | info | bset | bclr | btest | rdblk | wrblk =>
    simp [decode, encode, decodeCtxOnly]

end Sys2Proof

namespace Sys2Proof.Machine

/-! ### Item addressing -/

theorem Context.off_eq_zero {x : Context} (h : x.isz = 0) (i : Nat) : x.off i = 0 := by
  simp [Context.off, h]

/-- Settles O29: every slot ends by the capacity, which the invariant holds within `MEM_BITS`. -/
theorem slotsLieInsideTheCapacity : Obligations.SlotsLieInsideTheCapacity := by
  intro cfg x i hx
  have ⟨_, _, _, _, hcap, _, _⟩ := hx
  exact ⟨rfl, fun hi => ⟨x.slot_end_le_cap hi, hcap⟩, fun hz => x.off_eq_zero hz i, x.item_testBit i⟩

/-! ### A run of requests -/

theorem step_encoded {s : State} {i : Instr} {es : List PortEvent} (hin : s.inbox = .request (encode i) :: es) :
    step s = exec i { s with inbox := es } :=
  step_command hin (decode_encode i)

/-- A command completes whatever the host will do next, and leaves that as it is. -/
theorem exec_next_withInbox (i : Instr) (s : State) (es es' : List PortEvent) :
    ∃ t, t.inbox = es ∧ exec i { s with inbox := es } = .next t ∧
      exec i { s with inbox := es' } = .next { t with inbox := es' } := by
  obtain ⟨t, ht, -, hin, -⟩ := commandsChangeOnlyTheirOwnContext i { s with inbox := es }
  refine ⟨t, hin, ht, ?_⟩
  calc exec i { s with inbox := es' }
    _ = withInbox es' (exec i { s with inbox := es }) := exec_withInbox i { s with inbox := es } es'
    _ = .next { t with inbox := es' } := by rw [ht]; rfl

theorem execAll_cons {i : Instr} {s t : State} (is : List Instr) (h : exec i s = .next t) :
    execAll (i :: is) s = execAll is t := by
  rw [execAll, h]

/-- Settles O16, by induction on the commands: the first step carries out the first command, and the rest of the run is
the fold from the state it left. -/
theorem runsAreTheFoldOfTheCommands : Obligations.RunsAreTheFoldOfTheCommands := by
  intro is
  induction is with
  | nil =>
    rintro s es hin
    obtain rfl : s.inbox = es := hin
    rfl
  | cons i is ih =>
    intro s es hin
    obtain ⟨t, htin, hstep, hexec⟩ := exec_next_withInbox i s (requestsOf is ++ es) es
    rw [List.length_cons, run_succ _ ((step_encoded hin).trans hstep), ih t es htin]
    exact (execAll_cons is hexec).symm

/-! ### Writing again what was written -/

/-- Writing a field a second time changes nothing more. -/
theorem memWrite_memWrite_same (m : Memory) (hm : m.wf) (a n : Nat) (v : Word) :
    memWrite (memWrite m a n v) a n v = memWrite m a n v := by
  have hwf := memWrite_wf m hm a n v
  refine Memory.ext_get (memWrite_wf _ hwf a n v) hwf fun b => ?_
  rw [memWrite_get _ hwf, memWrite_get m hm]
  split <;> rfl

/-- Writing a block a second time changes nothing more. -/
theorem blockWrite_blockWrite_same (m : Memory) (hm : m.wf) (cap k : Nat) (v : Word) :
    blockWrite (blockWrite m cap k v) cap k v = blockWrite m cap k v := by
  have hwf := blockWrite_wf m hm cap k v
  refine Memory.ext_get (blockWrite_wf _ hwf cap k v) hwf fun b => ?_
  rw [blockWrite_get _ hwf, blockWrite_get m hm]
  split <;> rfl

/-- A storage update that a second time changes nothing more leaves the context as it left it the first time. -/
theorem State.update_again (s : State) {c : CtxNum} (hc : c.toNat < s.ctxs.length) (f : Context → Memory)
    (hf : f { s.ctx c with mem := f (s.ctx c) } = f (s.ctx c)) :
    { (s.setMem c (f (s.ctx c))).ctx c with mem := f ((s.setMem c (f (s.ctx c))).ctx c) } =
      { s.ctx c with mem := f (s.ctx c) } := by
  rw [s.setMem_ctx_same c _ hc, hf]

/-- COPY leaves its source as it was, also when that is the destination. -/
theorem State.setCtx_ctx_source (s : State) (d c : CtxNum) : (s.setCtx d (s.ctx c)).ctx c = s.ctx c := by
  by_cases h : c = d
  · rw [← h, s.setCtx_self]
  · exact s.setCtx_ctx_other _ h

theorem Writes.of_eq {s : State} {i : Instr} {c : CtxNum} {x y : Context} (h : Writes s i c x) (he : x = y) :
    Writes s i c y := he ▸ h

/-- In the state that a write left, the same command would write the same context. -/
theorem Writes.again {s : State} {i : Instr} {c : CtxNum} {x : Context} (h : Writes s i c x) (hs : s.Inv)
    (hc : c.toNat < s.cfg.nCtx) : Writes (s.setCtx c x) i c x := by
  have hlen : c.toNat < s.ctxs.length := hs.lt_length hc
  have hx : (s.setCtx c x).ctx c = x := s.setCtx_ctx_same c x hlen
  have ⟨hwf, _⟩ := hs.ctx_inv c
  cases h with
  | create c n m hz hw hcap => exact .create c n m hz hw hcap
  | copy _ src a b hsrc =>
    exact (Writes.copy (s := s.setCtx c (s.ctx src)) c src a b hsrc).of_eq (s.setCtx_ctx_source c src)
  | setitem c i v hi hv =>
    exact (Writes.setitem c i v (hx.symm ▸ hi) (hx.symm ▸ hv)).of_eq
      (s.update_again hlen (fun x => memWrite x.mem (x.off i.toNat) x.isz.toNat v) (memWrite_memWrite_same _ hwf _ _ v))
  | bset c p a hp =>
    exact (Writes.bset c p a (hx.symm ▸ hp)).of_eq
      (s.update_again hlen (fun x => x.mem.set p.toNat true) (Memory.set_set_same _ hwf _ _))
  | bclr c p a hp =>
    exact (Writes.bclr c p a (hx.symm ▸ hp)).of_eq
      (s.update_again hlen (fun x => x.mem.set p.toNat false) (Memory.set_set_same _ hwf _ _))
  | wrblk c k v hk =>
    exact (Writes.wrblk c k v (hx.symm ▸ hk)).of_eq
      (s.update_again hlen (fun x => blockWrite x.mem x.cap k.toNat v) (blockWrite_blockWrite_same _ hwf _ _ v))

/-! ### Repeating a command -/

/-- The converse of the last case of `exec_shape`: a command that is past every check writes its context and answers OK. -/
theorem Writes.exec_eq {s : State} {i : Instr} {c : CtxNum} {x : Context} (h : Writes s i c x)
    (hf : s.record.fault = false) (hi : i.wellFormed s.cfg = true) :
    exec i s = .next ((s.setCtx c x).reply .ok []) := by
  cases h with
  | create c n m hz hw hcap =>
    refine (guarded_ready _ hf hi).trans ?_
    rw [if_neg hz, if_neg (Nat.not_le.mpr hw), if_neg (Nat.not_lt.mpr hcap)]
    rfl
  | setitem c i v hlt hv =>
    exact (guarded_ready _ hf hi).trans ((if_neg (Nat.not_le.mpr hlt)).trans (if_neg (Nat.not_lt.mpr hv)))
  | copy d c a b hsrc => exact guarded_ready _ hf hi
  | bset c p a hp => exact (guarded_ready _ hf hi).trans (if_neg (Nat.not_le.mpr hp))
  | bclr c p a hp => exact (guarded_ready _ hf hi).trans (if_neg (Nat.not_le.mpr hp))
  | wrblk c k v hk => exact (guarded_ready _ hf hi).trans (if_neg (Nat.not_le.mpr hk))

/-- A command carried out with other responses delivered before it leaves the same block (10_state.md R33). -/
theorem exec_next_withOutbox {i : Instr} {s t : State} (h : exec i s = .next t) (out : List Response) :
    ∃ u, exec i { s with outbox := out } = .next u ∧ SameBlock t u := by
  obtain ⟨t₀, h₀, -⟩ := commandsChangeOnlyTheirOwnContext i { s with outbox := [] }
  have hout (o : List Response) : exec i { s with outbox := o } = .next { t₀ with outbox := o ++ t₀.outbox } := by
    calc exec i { s with outbox := o }
      _ = withEarlier o (exec i { s with outbox := [] }) := by rw [← exec_withEarlier, List.append_nil]
      _ = .next { t₀ with outbox := o ++ t₀.outbox } := by rw [h₀]; rfl
  cases h.symm.trans (hout s.outbox)
  exact ⟨_, hout out, rfl, rfl, rfl⟩

/-- A command that raises no fault adds its response and nothing else, or is past every check and writes a context. -/
theorem exec_no_rise {i : Instr} {s u : State} (h : exec i s = .next u)
    (hrise : ¬ (s.record.fault = false ∧ u.record.fault = true)) :
    (∃ st d, u = s.reply st d) ∨
    (s.record.fault = false ∧ i.wellFormed s.cfg = true ∧ ∃ c x, c.toNat < s.cfg.nCtx ∧ Writes s i c x ∧
      u = (s.setCtx c x).reply .ok []) := by
  obtain ⟨st, d, he, -, -⟩ | ⟨hf, f, he⟩ | ⟨hf, hi, c, x, hc, hw, he⟩ := exec_shape i s
  · cases he.symm.trans h
    exact .inl ⟨st, d, rfl⟩
  · cases he.symm.trans h
    exact absurd ⟨hf, rfl⟩ hrise
  · cases he.symm.trans h
    exact .inr ⟨hf, hi, c, x, hc, hw, rfl⟩

theorem read_sameBlock {i : Instr} {s t : State} (hi : isReadCommand i = true) (h : exec i s = .next t)
    (hrise : ¬ (s.record.fault = false ∧ t.record.fault = true)) : SameBlock s t := by
  obtain ⟨st, d, rfl⟩ | ⟨-, -, c, x, -, hw, -⟩ := exec_no_rise h hrise
  · exact ⟨rfl, rfl, rfl⟩
  · exact absurd (hi.symm.trans hw.not_read) nofun

theorem repeat_sameBlock {i : Instr} {s t : State} (hs : s.Inv) (h : exec i s = .next t)
    (hrise : ¬ (s.record.fault = false ∧ t.record.fault = true)) : ∃ u, exec i t = .next u ∧ SameBlock t u := by
  obtain ⟨st, d, rfl⟩ | ⟨hf, hi, c, x, hc, hw, rfl⟩ := exec_no_rise h hrise
  · exact exec_next_withOutbox h _
  · have hagain : exec i (s.setCtx c x) = .next ((s.setCtx c x).reply .ok []) := by
      rw [(hw.again hs hc).exec_eq hf hi, s.setCtx_setCtx]
    exact exec_next_withOutbox hagain _

/-- Settles O24: a read writes no context, and a command that wrote one would write the same again. -/
theorem readsChangeNothingAndRepeatsChangeNothingMore : Obligations.ReadsChangeNothingAndRepeatsChangeNothingMore :=
  ⟨fun _ _ _ => read_sameBlock, fun _ _ _ => repeat_sameBlock⟩

end Sys2Proof.Machine
end

section
/-! Proofs of the family 30_encoding.md: the decoder and the encoder are inverse (R61 to R65), which words are accepted
(R65, R67), what an ill-formed request does (R66, R67), one response to each request (R60), and the assembler's
encodings and pseudo-instructions (R70, R71). -/

namespace Sys2Proof

/-! ### The decoder accepts the encoder's requests and no others -/

/-- `k` is the command of opcode `o` that uses CTX only, SRC being zero (30_encoding.md R65). -/
def EncodesCtxOnly (o : BitVec 8) (k : CtxNum → Word → Word → Instr) : Prop :=
  ∀ c a b, encode (k c a b) = { cmd := cmdWord o c 0, arg0 := a, arg1 := b }

/-- A request is the one whose word is put together from its fields. -/
theorem Request.eq_of_cmd {r : Request} {w : CmdWord} (h : r.cmd = w) :
    ({ cmd := w, arg0 := r.arg0, arg1 := r.arg1 } : Request) = r := by
  rw [← h]

theorem EncodesCtxOnly.encode_of_decode {o : BitVec 8} {k : CtxNum → Word → Word → Instr}
    (hk : EncodesCtxOnly o k) {r : Request} {i : Instr} (hrsvd : rsvdField r.cmd = 0) (hopc : opcField r.cmd = o)
    (h : decodeCtxOnly r k = .ok i) : encode i = r := by
  obtain ⟨hsrc, rfl⟩ := decodeCtxOnly_ok.mp h
  have hcmd := cmdWord_fields hrsvd
  rw [hopc, hsrc] at hcmd
  exact (hk _ _ _).trans (Request.eq_of_cmd hcmd.symm)

theorem encode_of_decodeFinfo {r : Request} {i : Instr} (hrsvd : rsvdField r.cmd = 0) (hopc : opcField r.cmd = 0x0F)
    (h : decodeFinfo r = .ok i) : encode i = r := by
  obtain ⟨hsrc, hctx, rfl⟩ := decodeFinfo_ok.mp h
  have hcmd := cmdWord_fields hrsvd
  rw [hopc, hsrc, hctx] at hcmd
  exact Request.eq_of_cmd hcmd.symm

/-- An accepted request is the encoding of what it decodes to: one case for each opcode of 30_encoding.md R64. -/
theorem encode_of_decode {r : Request} {i : Instr} (h : decode r = .ok i) : encode i = r := by
  unfold decode at h
  split at h
  · exact absurd h nofun
  next hrsvd =>
    replace hrsvd := not_not.mp hrsvd
    split at h
    case h_1 hopc | h_2 hopc | h_3 hopc | h_4 hopc | h_6 hopc | h_7 hopc | h_8 hopc | h_9 hopc | h_10 hopc
      | h_11 hopc =>
      exact EncodesCtxOnly.encode_of_decode (fun _ _ _ => rfl) hrsvd hopc h
    case h_5 hopc =>
      cases h
      have hcmd := cmdWord_fields hrsvd
      rw [hopc] at hcmd
      exact Request.eq_of_cmd hcmd.symm
    case h_12 hopc => exact encode_of_decodeFinfo hrsvd hopc h
    case h_13 => exact absurd h nofun

/-- The decoder accepts exactly what the encoder makes. -/
theorem decode_eq_ok_iff {r : Request} {i : Instr} : decode r = .ok i ↔ encode i = r :=
  ⟨encode_of_decode, fun h => h ▸ decode_encode i⟩

/-- Settles O1: the decoder reads each field of the encoder's word back. -/
theorem decodeOfEncodeGivesTheCommandBack : Obligations.DecodeOfEncodeGivesTheCommandBack := decode_encode

/-- Settles O2: a word whose reserved bits are zero is put together from its other fields, which the command keeps. -/
theorem encodeOfDecodeGivesTheRequestBack : Obligations.EncodeOfDecodeGivesTheRequestBack :=
  fun _ _ => encode_of_decode

/-! ### The table of match and mask pairs -/

theorem EncodingRow.accepts_iff (row : EncodingRow) (w : CmdWord) :
    row.accepts w = true ↔ w &&& row.mask = row.bits :=
  beq_iff_eq

/-- Each command's word is accepted by a row, its own. -/
theorem exists_row_accepts_encode (i : Instr) : ∃ row ∈ encodingTable, row.accepts (encode i).cmd = true := by
  have hown : Laws.EncodeMatchesRow.Statement i := by
    cases i with
    | create c a b => exact Laws.EncodeMatchesRow.create c a b
    | setitem c a b => exact Laws.EncodeMatchesRow.setitem c a b
    | getitem c a b => exact Laws.EncodeMatchesRow.getitem c a b
    | getitems c a b => exact Laws.EncodeMatchesRow.getitems c a b
    | copy d c a b => exact Laws.EncodeMatchesRow.copy d c a b
    | info c a b => exact Laws.EncodeMatchesRow.info c a b
    | bset c a b => exact Laws.EncodeMatchesRow.bset c a b
    | bclr c a b => exact Laws.EncodeMatchesRow.bclr c a b
    | btest c a b => exact Laws.EncodeMatchesRow.btest c a b
    | rdblk c a b => exact Laws.EncodeMatchesRow.rdblk c a b
    | wrblk c a b => exact Laws.EncodeMatchesRow.wrblk c a b
    | finfo a b => exact Laws.EncodeMatchesRow.finfo a b
  obtain ⟨row, hrow, hacc⟩ := hown
  exact ⟨row, List.mem_of_getElem? hrow, hacc⟩

theorem opcField_and (w v : CmdWord) : opcField (w &&& v) = opcField w &&& opcField v := BitVec.extractLsb'_and

theorem srcField_and (w v : CmdWord) : srcField (w &&& v) = srcField w &&& srcField v := BitVec.extractLsb'_and

theorem rsvdField_and (w v : CmdWord) : rsvdField (w &&& v) = rsvdField w &&& rsvdField v := BitVec.extractLsb'_and

/-- Both kinds of mask that leave CTX free keep OPC and RSVD whole. -/
theorem opc_rsvd_of_masked {w mask : CmdWord} {o : BitVec 8} (hopc : opcField mask = BitVec.allOnes 8)
    (hrsvd : rsvdField mask = BitVec.allOnes 16) (h : w &&& mask = cmdWord o 0 0) :
    opcField w = o ∧ rsvdField w = 0 := by
  have ho := congrArg opcField h
  have hr := congrArg rsvdField h
  rw [opcField_and, hopc, BitVec.and_allOnes, opcField_cmdWord] at ho
  rw [rsvdField_and, hrsvd, BitVec.and_allOnes, rsvdField_cmdWord] at hr
  exact ⟨ho, hr⟩

theorem eq_cmdWord_of_ctx_row {w : CmdWord} {o : BitVec 8} (h : w &&& 0xFFFFF0FF = cmdWord o 0 0) :
    w = cmdWord o (ctxField w) 0 := by
  obtain ⟨hopc, hrsvd⟩ := opc_rsvd_of_masked (by decide) (by decide) h
  have hsrc := congrArg srcField h
  rw [srcField_and, show srcField 0xFFFFF0FF = BitVec.allOnes 4 by decide, BitVec.and_allOnes, srcField_cmdWord] at hsrc
  rw [← hopc, ← hsrc, cmdWord_fields hrsvd]

theorem eq_cmdWord_of_copy_row {w : CmdWord} {o : BitVec 8} (h : w &&& 0xFFFF00FF = cmdWord o 0 0) :
    w = cmdWord o (ctxField w) (srcField w) := by
  obtain ⟨hopc, hrsvd⟩ := opc_rsvd_of_masked (by decide) (by decide) h
  rw [← hopc, cmdWord_fields hrsvd]

/-- A request that the row of a command with CTX only accepts presents that command. -/
theorem EncodesCtxOnly.presents {o : BitVec 8} {k : CtxNum → Word → Word → Instr} (hk : EncodesCtxOnly o k)
    {r : Request} (h : EncodingRow.accepts { mask := 0xFFFFF0FF, bits := cmdWord o 0 0 } r.cmd = true) :
    ∃ i, encode i = r :=
  ⟨k (ctxField r.cmd) r.arg0 r.arg1,
    (hk _ _ _).trans (Request.eq_of_cmd (eq_cmdWord_of_ctx_row ((EncodingRow.accepts_iff _ _).mp h)))⟩

theorem copyRow_presents {r : Request} (h : copyRow.accepts r.cmd = true) : ∃ i, encode i = r :=
  ⟨.copy (ctxField r.cmd) (srcField r.cmd) r.arg0 r.arg1,
    Request.eq_of_cmd (eq_cmdWord_of_copy_row ((EncodingRow.accepts_iff _ _).mp h))⟩

theorem finfoRow_presents {r : Request}
    (h : EncodingRow.accepts { mask := 0xFFFFFFFF, bits := finfoWord } r.cmd = true) : ∃ i, encode i = r :=
  ⟨.finfo r.arg0 r.arg1,
    Request.eq_of_cmd (BitVec.and_allOnes.symm.trans ((EncodingRow.accepts_iff _ _).mp h))⟩

/-- Whatever row accepts a request's word, the request presents the command of that row. -/
theorem presents_of_row_accepts {r : Request} {row : EncodingRow} (hrow : row ∈ encodingTable)
    (h : row.accepts r.cmd = true) : ∃ i, encode i = r := by
  simp only [encodingTable, List.mem_cons, List.not_mem_nil, or_false] at hrow
  obtain rfl | rfl | rfl | rfl | rfl | rfl | rfl | rfl | rfl | rfl | rfl | rfl := hrow
  · exact EncodesCtxOnly.presents (k := .create) (fun _ _ _ => rfl) h
  · exact EncodesCtxOnly.presents (k := .setitem) (fun _ _ _ => rfl) h
  · exact EncodesCtxOnly.presents (k := .getitem) (fun _ _ _ => rfl) h
  · exact EncodesCtxOnly.presents (k := .getitems) (fun _ _ _ => rfl) h
  · exact copyRow_presents h
  · exact EncodesCtxOnly.presents (k := .info) (fun _ _ _ => rfl) h
  · exact EncodesCtxOnly.presents (k := .bset) (fun _ _ _ => rfl) h
  · exact EncodesCtxOnly.presents (k := .bclr) (fun _ _ _ => rfl) h
  · exact EncodesCtxOnly.presents (k := .btest) (fun _ _ _ => rfl) h
  · exact EncodesCtxOnly.presents (k := .rdblk) (fun _ _ _ => rfl) h
  · exact EncodesCtxOnly.presents (k := .wrblk) (fun _ _ _ => rfl) h
  · exact finfoRow_presents h

theorem decodes_iff_row_accepts (r : Request) :
    (∃ i, decode r = .ok i) ↔ ∃ row ∈ encodingTable, row.accepts r.cmd = true := by
  simp only [decode_eq_ok_iff]
  constructor
  · rintro ⟨i, rfl⟩
    exact exists_row_accepts_encode i
  · rintro ⟨row, hrow, h⟩
    exact presents_of_row_accepts hrow h

/-- Two rows that accept one word agree on the bits that both masks keep. -/
theorem EncodingRow.bits_agree {p q : EncodingRow} {w : CmdWord} (hp : p.accepts w = true) (hq : q.accepts w = true) :
    p.bits &&& q.mask = q.bits &&& p.mask := by
  rw [← (p.accepts_iff w).mp hp, ← (q.accepts_iff w).mp hq, BitVec.and_assoc, BitVec.and_assoc,
    BitVec.and_comm p.mask]

/-- Two different rows of the table disagree on a bit that both masks keep. -/
theorem encodingTable_bits_disagree :
    encodingTable.Pairwise fun p q => p.bits &&& q.mask ≠ q.bits &&& p.mask := by decide

/-- Settles O3: a row accepts the encodings of its command and nothing else, and two rows disagree on a bit
that both masks keep. -/
theorem decoderAcceptsExactlyTheRowsOfTheTable : Obligations.DecoderAcceptsExactlyTheRowsOfTheTable :=
  ⟨decodes_iff_row_accepts, encodingTable_bits_disagree.imp fun hne _ h => hne (EncodingRow.bits_agree h.1 h.2)⟩

/-- Settles O5, by decoding each word. -/
theorem writtenOutWordsDecodeToTheirCommands : Obligations.WrittenOutWordsDecodeToTheirCommands := by
  unfold Obligations.WrittenOutWordsDecodeToTheirCommands
  decide

/-! ### Reserved encodings -/

/-- The reserved words of 30_encoding.md R67: a reserved opcode, a reserved bit, or an unused field that is not zero. -/
def ReservedWord (w : CmdWord) : Prop :=
  opcField w ∈ [0x00#8, 0x07#8, 0x0B#8, 0x0E#8] ∨ 0x10 ≤ (opcField w).toNat ∨ rsvdField w ≠ 0 ∨
    (opcField w ≠ 0x05 ∧ srcField w ≠ 0) ∨ (opcField w = 0x0F ∧ ctxField w ≠ 0)

theorem not_reservedWord_encode (i : Instr) : ¬ ReservedWord (encode i).cmd := by
  unfold ReservedWord
  cases i with
  | copy d c a b => simp [encode]
  | finfo a b => simp [encode]
  | create | setitem | getitem | getitems | info | bset | bclr | btest | rdblk | wrblk => simp [encode]

/-- The decoder refuses every reserved word. -/
theorem decode_reserved {r : Request} (h : ReservedWord r.cmd) : ∃ e, decode r = .error e := by
  cases hr : decode r with
  | error e => exact ⟨e, rfl⟩
  | ok i =>
    rw [← encode_of_decode hr] at h
    exact absurd h (not_reservedWord_encode i)

end Sys2Proof

namespace Sys2Proof.Machine

/-- With no fault recorded, a request that the decoder refuses raises `F_ILLEGAL` (30_encoding.md R66, R67). -/
theorem undecodable_ready {s : State} (r : Request) (hf : s.record.fault = false) :
    undecodable r s = raiseFault .illegal r s := by
  simp [undecodable_eq, hf]

/-- Settles O8: no encoding is reserved, so the decoder refuses the word and the step enters the fault. -/
theorem reservedEncodingsRaiseIllegal : Obligations.ReservedEncodingsRaiseIllegal := by
  intro s r es hin hf hres
  obtain ⟨e, hr⟩ := decode_reserved hres
  calc step s
    _ = undecodable r { s with inbox := es } := step_undecodable hin hr
    _ = raiseFault .illegal r { s with inbox := es } := undecodable_ready r hf

/-! ### Contexts that do not exist -/

/-- With no fault recorded, a command that is not well-formed raises `F_ILLEGAL` (60_exceptions.md R144). -/
theorem exec_illFormed {i : Instr} {s : State} (hf : s.record.fault = false) (hi : i.wellFormed s.cfg = false) :
    exec i s = raiseFault .illegal (encode i) s := by
  cases i with
  | finfo a b => exact absurd hi nofun
  | create | setitem | getitem | getitems | copy | info | bset | bclr | btest | rdblk | wrblk =>
    exact guarded_illFormed _ hf hi

theorem hasCtx_eq_false {cfg : Config} {c : CtxNum} (h : cfg.nCtx ≤ c.toNat) : cfg.hasCtx c = false := by
  simpa [Config.hasCtx] using h

theorem wellFormed_of_missing_target {i : Instr} {cfg : Config} {c : CtxNum} (hc : targetOf i = some c)
    (h : cfg.nCtx ≤ c.toNat) : i.wellFormed cfg = false := by
  have hmissing := hasCtx_eq_false h
  cases i with
  | finfo a b => exact absurd hc nofun
  | copy d c' a b =>
    obtain rfl : d = c := Option.some.inj hc
    simp [Instr.wellFormed, hmissing]
  | create c' | setitem c' | getitem c' | getitems c' | info c' | bset c' | bclr c' | btest c' | rdblk c' | wrblk c' =>
    obtain rfl : c' = c := Option.some.inj hc
    exact hmissing

theorem wellFormed_copy_of_missing_source {cfg : Config} (d : CtxNum) {c : CtxNum} (a b : Word)
    (h : cfg.nCtx ≤ c.toNat) : (Instr.copy d c a b).wellFormed cfg = false := by
  simp [Instr.wellFormed, hasCtx_eq_false h]

/-- Settles O10: such a command is not well-formed, whether CTX or COPY's SRC names the missing context. -/
theorem missingContextsRaiseIllegal : Obligations.MissingContextsRaiseIllegal := by
  rintro i s hf (⟨c, hc, hmissing⟩ | ⟨d, c, a, b, rfl, hmissing⟩)
  · exact exec_illFormed hf (wellFormed_of_missing_target hc hmissing)
  · exact exec_illFormed hf (wellFormed_copy_of_missing_source d a b hmissing)

/-! ### Steps and responses -/

/-- Settles O6: a request that decodes is carried out, and with nothing presented the state is held. -/
theorem stepRunsTheDecodedCommand : Obligations.StepRunsTheDecodedCommand :=
  ⟨fun _ _ _ _ => step_command, fun _ => step_idle⟩

/-- The result is a next state that leaves the host's further events and has delivered exactly one response. -/
def AnswersOnce (s : State) (r : Result) : Prop :=
  ∃ t resp, r = .next t ∧ t.inbox = s.inbox ∧ t.outbox = s.outbox ++ [resp]

theorem raiseFault_answersOnce (f : FaultCode) (r : Request) (s : State) : AnswersOnce s (raiseFault f r s) :=
  ⟨_, _, raiseFault_eq f r s, rfl, rfl⟩

theorem undecodable_answersOnce (r : Request) (s : State) : AnswersOnce s (undecodable r s) := by
  rw [undecodable_eq]
  split
  · exact ⟨_, _, rfl, rfl, rfl⟩
  · exact raiseFault_answersOnce .illegal r s

theorem exec_answersOnce (i : Instr) (s : State) : AnswersOnce s (exec i s) := by
  obtain ⟨st, d, he, -, -⟩ | ⟨-, f, he⟩ | ⟨-, -, c, x, -, -, he⟩ := exec_shape i s
  · exact ⟨_, _, he, rfl, rfl⟩
  · exact he ▸ raiseFault_answersOnce f (encode i) s
  · exact ⟨_, _, he, rfl, rfl⟩

/-- Settles O14: a request is carried out as a command or as an undecodable one, and each answers once. -/
theorem everyRequestGetsExactlyOneResponse : Obligations.EveryRequestGetsExactlyOneResponse := by
  intro s r es hin
  cases hr : decode r with
  | error e => exact step_undecodable hin hr ▸ undecodable_answersOnce r { s with inbox := es }
  | ok i => exact step_command hin hr ▸ exec_answersOnce i { s with inbox := es }

/-! ### The assembler and the pseudo-instructions -/

/-- Settles O4, by assembling and encoding each line. -/
theorem workedEncodingsAssembleAsTheSpecWritesThem : Obligations.WorkedEncodingsAssembleAsTheSpecWritesThem := by
  unfold Obligations.WorkedEncodingsAssembleAsTheSpecWritesThem
  decide

theorem createw_of_le {z : Nat} (c : CtxNum) (n : Word) (hz : z ≤ 63) :
    createw c n z = some (.create c n (BitVec.ofNat 64 (maxItem z))) := if_pos hz

theorem createw_of_gt {z : Nat} (c : CtxNum) (n : Word) (hz : 63 < z) : createw c n z = none :=
  if_neg (Nat.not_le.mpr hz)

/-- CREATE derives from the operand of `createw` the width that `createw` names (00_scope.md R11). -/
theorem bitsNeeded_createw_operand {z : Nat} (hz : z ≤ 63) : bitsNeeded (BitVec.ofNat 64 (maxItem z)).toNat = z := by
  have hfits : maxItem z < 2 ^ 64 := bitsNeeded_le_iff.mp (by rw [bitsNeeded_maxItem]; omega)
  rw [BitVec.toNat_ofNat, Nat.mod_eq_of_lt hfits, bitsNeeded_maxItem]

/-- CREATE with the operand of `createw`, where the width is accepted and the items fit (41_compact_array.md R101). -/
theorem exec_create_maxItem {s : State} {c : CtxNum} {n : Word} {z : Nat} (hready : s.Ready c) (hz : z ≤ 63)
    (hw : z < s.cfg.W) (hzero : ¬ (s.cfg.zeroWidthReject = true ∧ z = 0)) (hcap : n.toNat * z ≤ s.cfg.memBits) :
    exec (.create c n (BitVec.ofNat 64 (maxItem z))) s = .next ((s.setCtx c (createdContext n z)).reply .ok []) := by
  obtain ⟨hf, hc⟩ := hready
  have hwrites := Writes.create (s := s) c n (BitVec.ofNat 64 (maxItem z))
  rw [bitsNeeded_createw_operand hz] at hwrites
  exact (hwrites hzero hw hcap).exec_eq hf ((hasCtx_iff _ _).mpr hc)

theorem createw_makes_context {s : State} {c : CtxNum} {n : Word} {z : Nat} (hs : s.Inv) (hready : s.Ready c)
    (hw : z < s.cfg.W) (hzero : ¬ (s.cfg.zeroWidthReject = true ∧ z = 0)) (hcap : n.toNat * z ≤ s.cfg.memBits) :
    ∃ i t, createw c n z = some i ∧ exec i s = .next t ∧ Answered s t 0x00 [] ∧ (t.ctx c).isz.toNat = z ∧
      (t.ctx c).cnt = n := by
  have hz : z < 64 := hw.trans_le hs.1.2.1
  have hz' : z ≤ 63 := Nat.le_of_lt_succ hz
  refine ⟨_, _, createw_of_le c n hz', exec_create_maxItem hready hz' hw hzero hcap, rfl, ?_⟩
  rw [State.reply_ctx, s.setCtx_ctx_same c _ (hs.lt_length hready.2)]
  exact ⟨createdContext_isz_toNat n hz, rfl⟩

theorem bwrite_of_gt_one {v : Nat} (c : CtxNum) (p : Word) (hv : 1 < v) : bwrite c p v = none := by
  have h1 : v ≠ 1 := by omega
  have h0 : v ≠ 0 := by omega
  simp [bwrite, h1, h0]

/-- Settles O53: `2 ^ z - 1` needs exactly `z` digits, so CREATE configures that width; `bwrite` by its three cases. -/
theorem pseudoInstructionsDoAsTheSpecSays : Obligations.PseudoInstructionsDoAsTheSpecSays :=
  ⟨fun _ _ _ _ => createw_makes_context, fun c n _ => ⟨createw_of_le c n, createw_of_gt c n⟩,
    fun c p => ⟨rfl, rfl, fun _ => bwrite_of_gt_one c p⟩⟩

end Sys2Proof.Machine
end

section
/-! Proofs of the family 40_bitvector.md: bit commands (R80 to R85) and block commands (R86 to R89). First what each
command does within and outside its index range, then how bits lie in items and blocks, then the statements. -/

namespace Sys2Proof.Machine

/-! ### Index preconditions -/

section
variable {i : Instr} {s : State} {c : CtxNum} {b : Word} (rule : Result)

theorem guarded_withBitIndex_of_le (hf : s.record.fault = false) (hi : i.wellFormed s.cfg = true)
    (hb : (s.ctx c).cap ≤ b.toNat) :
    guarded i s (withBitIndex i c b s rule) = .next (s.faultedWith 0x44 (encode i)) :=
  (guarded_ready _ hf hi).trans (if_pos hb)

theorem guarded_withBitIndex_of_lt (hf : s.record.fault = false) (hi : i.wellFormed s.cfg = true)
    (hb : b.toNat < (s.ctx c).cap) : guarded i s (withBitIndex i c b s rule) = rule :=
  (guarded_ready _ hf hi).trans (if_neg (Nat.not_le.mpr hb))

theorem guarded_withBlockIndex_of_le (hf : s.record.fault = false) (hi : i.wellFormed s.cfg = true)
    (hb : (s.ctx c).nblk ≤ b.toNat) :
    guarded i s (withBlockIndex i c b s rule) = .next (s.faultedWith 0x45 (encode i)) :=
  (guarded_ready _ hf hi).trans (if_pos hb)

theorem guarded_withBlockIndex_of_lt (hf : s.record.fault = false) (hi : i.wellFormed s.cfg = true)
    (hb : b.toNat < (s.ctx c).nblk) : guarded i s (withBlockIndex i c b s rule) = rule :=
  (guarded_ready _ hf hi).trans (if_neg (Nat.not_le.mpr hb))

end

/-! ### Commands within their range -/

section
variable {s : State} {c : CtxNum}

theorem exec_getitem_of_lt {i : Word} (hready : s.Ready c) (hi : i.toNat < (s.ctx c).cnt.toNat) (a : Word) :
    exec (.getitem c i a) s = .next (s.answeredWith 0x00 [BitVec.ofNat 64 ((s.ctx c).item i.toNat)]) :=
  (guarded_ready (i := .getitem c i a) _ hready.1 ((hasCtx_iff _ _).mpr hready.2)).trans (if_neg (Nat.not_le.mpr hi))

theorem exec_btest_of_lt {p : Word} (hready : s.Ready c) (hp : p.toNat < (s.ctx c).cap) (a : Word) :
    exec (.btest c p a) s = .next (s.answeredWith 0x00 [wordOfBit (s.bit c p.toNat)]) :=
  guarded_withBitIndex_of_lt _ hready.1 ((hasCtx_iff _ _).mpr hready.2) hp

theorem exec_rdblk_of_lt {k : Word} (hready : s.Ready c) (hk : k.toNat < (s.ctx c).nblk) (a : Word) :
    exec (.rdblk c k a) s = .next (s.answeredWith 0x00 [blockRead (s.ctx c).mem k.toNat]) :=
  guarded_withBlockIndex_of_lt _ hready.1 ((hasCtx_iff _ _).mpr hready.2) hk

/-- BSET for `v = true` and BCLR for `v = false` (40_bitvector.md R80, R82). -/
theorem exec_writeBit_of_lt {p : Word} (hready : s.Ready c) (hp : p.toNat < (s.ctx c).cap) (a : Word) (v : Bool) :
    exec (if v then .bset c p a else .bclr c p a) s =
      .next ((s.setMem c ((s.ctx c).mem.set p.toNat v)).reply .ok []) := by
  obtain ⟨hf, hc⟩ := hready
  cases v with
  | true => exact (Writes.bset c p a hp).exec_eq hf ((hasCtx_iff _ _).mpr hc)
  | false => exact (Writes.bclr c p a hp).exec_eq hf ((hasCtx_iff _ _).mpr hc)

theorem exec_wrblk_of_lt {k : Word} (hready : s.Ready c) (hk : k.toNat < (s.ctx c).nblk) (v : Word) :
    exec (.wrblk c k v) s =
      .next ((s.setMem c (blockWrite (s.ctx c).mem (s.ctx c).cap k.toNat v)).reply .ok []) :=
  (Writes.wrblk c k v hk).exec_eq hready.1 ((hasCtx_iff _ _).mpr hready.2)

/-- RDBLK reads the storage that the command before it left: a write of storage keeps the context ready and its
size as it was. -/
theorem exec_rdblk_after_setMem {k : Word} {m : Memory} (hready : s.Ready c) (hc : c.toNat < s.ctxs.length)
    (hk : k.toNat < (s.ctx c).nblk) (a : Word) :
    exec (.rdblk c k a) ((s.setMem c m).reply .ok []) =
      .next (((s.setMem c m).reply .ok []).answeredWith 0x00 [blockRead m k.toNat]) := by
  have hctx : ((s.setMem c m).reply .ok []).ctx c = { s.ctx c with mem := m } := s.setMem_ctx_same c m hc
  have hready' : ((s.setMem c m).reply .ok []).Ready c := hready
  have hk' : k.toNat < (((s.setMem c m).reply .ok []).ctx c).nblk := by rwa [hctx]
  rw [exec_rdblk_of_lt hready' hk' a, hctx]

/-- The frame of a command that replaces the storage of one context: where the new storage holds `v` at the addresses in
`P` and the old bits elsewhere, exactly those bits of that context are written. -/
theorem exec_setMem_frame {i : Instr} {m : Memory} {P : Nat → Prop} [DecidablePred P] {v : Nat → Bool}
    (hc : c.toNat < s.ctxs.length) (hexec : exec i s = .next ((s.setMem c m).reply .ok []))
    (hm : ∀ b, m.get b = if P b then v b else (s.ctx c).mem.get b) :
    ∃ t, exec i s = .next t ∧ Answered s t 0x00 [] ∧ OnlyStorageDiffers s t ∧
      ∀ c' b, t.bit c' b = if c' = c ∧ P b then v b else s.bit c' b := by
  refine ⟨_, hexec, rfl, s.setMem_onlyStorageDiffers c m, fun c' b => ?_⟩
  rw [State.reply_bit]
  by_cases h : c' = c
  · subst h
    rw [s.setMem_bit_same c' m hc, hm]
    simp [State.bit]
  · simp [s.setMem_bit_other m h, h]

end

/-! ### Bits of items -/

/-- A bit address is in the slot of exactly one item (40_bitvector.md R83). -/
theorem slot_address_eq_iff {z i j b : Nat} (hj : j < z) : i * z + j = b ↔ i = b / z ∧ j = b % z := by
  have hunique := Nat.div_mod_unique (a := b) (b := z) (c := j) (d := i) (Nat.zero_lt_of_lt hj)
  rw [eq_comm (a := i), eq_comm (a := j), hunique, Nat.mul_comm, Nat.add_comm, and_iff_left hj]

theorem Context.isz_pos {x : Context} (hz : x.isz ≠ 0) : 0 < x.isz.toNat :=
  Nat.pos_of_ne_zero fun h => hz (BitVec.eq_of_toNat_eq h)

theorem Context.div_isz_lt_cnt {x : Context} {b : Nat} (hb : b < x.cap) : b / x.isz.toNat < x.cnt.toNat :=
  Nat.div_lt_of_lt_mul (Nat.mul_comm x.cnt.toNat _ ▸ hb)

/-- Bit address `b` is bit `b mod isz` of item `b div isz` (40_bitvector.md R83). -/
theorem Context.item_word_bit_of_address {x : Context} (hz : x.isz ≠ 0) (b : Nat) :
    (BitVec.ofNat 64 (x.item (b / x.isz.toNat))).getLsbD (b % x.isz.toNat) = x.mem.get b := by
  rw [x.item_word_bit, Nat.div_add_mod', decide_eq_true (Nat.mod_lt b (x.isz_pos hz)), Bool.true_and]

theorem wordOfBit_shiftLeft_bit (v : Bool) {n j : Nat} (hj : j < 64) :
    (wordOfBit v <<< n).getLsbD j = (v && decide (j = n)) := by
  cases v with
  | false => simp [wordOfBit]
  | true =>
    have hone : wordOfBit true <<< n = BitVec.twoPow 64 n := (BitVec.twoPow_eq 64 n).symm
    rw [hone, BitVec.getLsbD_twoPow, Bool.true_and, ← Bool.decide_and, decide_eq_decide]
    omega

/-- The item that holds a written bit: the other bits of its value stay, and that bit is the one written. -/
theorem Context.item_set_bit {x : Context} (hwf : x.mem.wf) (hz : x.isz ≠ 0) (b : Nat) (v : Bool) :
    BitVec.ofNat 64 (({ x with mem := x.mem.set b v } : Context).item (b / x.isz.toNat)) =
      (BitVec.ofNat 64 (x.item (b / x.isz.toNat)) &&& ~~~ (wordOfBit true <<< (b % x.isz.toNat))) |||
        (wordOfBit v <<< (b % x.isz.toNat)) := by
  have hmod : b % x.isz.toNat < x.isz.toNat := Nat.mod_lt b (x.isz_pos hz)
  refine BitVec.eq_of_getLsbD_eq fun j hj => ?_
  rw [Context.item_word_bit, BitVec.getLsbD_or, BitVec.getLsbD_and, BitVec.getLsbD_not, x.item_word_bit,
    wordOfBit_shiftLeft_bit true hj, wordOfBit_shiftLeft_bit v hj, Memory.get_set _ hwf]
  by_cases hjz : j < x.isz.toNat
  · by_cases hjb : j = b % x.isz.toNat
    · simp [slot_address_eq_iff hjz, ← hjb, hjz]
    · simp [slot_address_eq_iff hjz, hjb, hjz, hj]
  · have hjb : j ≠ b % x.isz.toNat := by omega
    simp [hjz, hjb]

/-- No other item's value depends on the written bit. -/
theorem Context.item_set_other {x : Context} {i b : Nat} (v : Bool) (hi : i ≠ b / x.isz.toNat) :
    ({ x with mem := x.mem.set b v } : Context).item i = x.item i :=
  memRead_congr fun _ hj => x.mem.get_set_other v fun he => hi ((slot_address_eq_iff hj).mp he).1

/-! ### Bits of blocks -/

theorem Context.nblk_le_iff (x : Context) (k : Nat) : x.nblk ≤ k ↔ x.cap ≤ 64 * k := by
  rw [← Nat.not_lt, x.lt_nblk_iff, Nat.not_lt]

/-- A block reads the storage bits below the capacity, and 0 where it is padding (10_state.md R26). -/
theorem Context.Inv.blockRead_bit {cfg : Config} {x : Context} (hx : x.Inv cfg) {k p : Nat} (hk : k < x.nblk)
    (hp : p < 64) : (blockRead x.mem k).getLsbD p = (decide (64 * k + p < x.cap) && x.mem.get (64 * k + p)) := by
  rw [Machine.blockRead_bit x.mem k p hp]
  by_cases hcap : 64 * k + p < x.cap
  · simp [hcap]
  · obtain ⟨-, -, -, -, -, -, hpad⟩ := hx
    have hbelow : 64 * k + p < 64 * x.nblk := by omega
    simp [hcap, hpad _ hbelow (Nat.le_of_not_lt hcap)]

theorem validMask_eq (cap k : Nat) : validMask cap k = BitVec.ofNat 64 (2 ^ min 64 (cap - 64 * k) - 1) := rfl

theorem validMask_bit {cap k p : Nat} (hp : p < 64) : (validMask cap k).getLsbD p = decide (64 * k + p < cap) := by
  rw [validMask_eq, BitVec.getLsbD_ofNat, decide_eq_true hp, Bool.true_and, Nat.testBit_two_pow_sub_one, decide_eq_decide]
  omega

/-- Below the last block every bit is addressable. -/
theorem Context.validMask_of_lt_last {x : Context} {k : Nat} (hk : k + 1 < x.nblk) :
    validMask x.cap k = BitVec.ofNat 64 (2 ^ 64 - 1) := by
  have hcap := (x.lt_nblk_iff (k + 1)).mp hk
  rw [validMask_eq, Nat.min_eq_left (by omega)]

theorem Context.validMask_of_last {x : Context} {k : Nat} (hk : k + 1 = x.nblk) :
    validMask x.cap k = BitVec.ofNat 64 (2 ^ (x.cap - 64 * k) - 1) := by
  have hcap := x.cap_le_blocks
  rw [validMask_eq, Nat.min_eq_right (by omega)]

theorem Context.Inv.blockRead_and_not_valid {cfg : Config} {x : Context} (hx : x.Inv cfg) {k : Nat} (hk : k < x.nblk) :
    blockRead x.mem k &&& ~~~ validMask x.cap k = 0 := by
  refine BitVec.eq_of_getLsbD_eq fun p hp => ?_
  rw [BitVec.getLsbD_and, BitVec.getLsbD_not, hx.blockRead_bit hk hp, validMask_bit hp]
  by_cases hcap : 64 * k + p < x.cap <;> simp [hcap]

/-- A slot that crosses into block `k + 1` starts inside block `k`, for it has fewer than 64 bits; its bits below the
boundary are bits of block `k`, the others of block `k + 1` (40_bitvector.md R87). -/
theorem Context.item_testBit_of_crossing {x : Context} {i k j : Nat} (hj : j < x.isz.toNat)
    (hlow : x.off i < 64 * (k + 1)) (hhigh : 64 * (k + 1) < x.off i + x.isz.toNat) :
    (x.item i).testBit j =
      if x.off i + j < 64 * (k + 1) then (blockRead x.mem k).getLsbD (x.off i + j - 64 * k)
      else (blockRead x.mem (k + 1)).getLsbD (x.off i + j - 64 * (k + 1)) := by
  have hz := x.isz_le
  have hbit : (x.item i).testBit j = x.mem.get (x.off i + j) := by
    rw [x.item_testBit, decide_eq_true hj, Bool.true_and, Context.off]
  split
  all_goals rw [hbit, Machine.blockRead_bit _ _ _ (by omega), Nat.add_sub_of_le (by omega)]

theorem Context.Inv.blockRead_blockWrite {cfg : Config} {x : Context} (hx : x.Inv cfg) {k : Nat} (hk : k < x.nblk)
    (v : Word) : blockRead (blockWrite x.mem x.cap k v) k = v &&& validMask x.cap k := by
  have ⟨hwf, _⟩ := hx
  refine BitVec.eq_of_getLsbD_eq fun p hp => ?_
  have hbit : (blockRead (blockWrite x.mem x.cap k v) k).getLsbD p =
      (decide (64 * k + p < x.cap) && (blockWrite x.mem x.cap k v).get (64 * k + p)) :=
    (hx.writeBlock k v).blockRead_bit hk hp
  rw [hbit, blockWrite_get _ hwf, BitVec.getLsbD_and, validMask_bit hp]
  by_cases hcap : 64 * k + p < x.cap <;> simp [hcap, hp]

/-- Writing back what was read leaves every bit, and so the canonical form, as it was. -/
theorem blockWrite_blockRead (m : Memory) (hm : m.wf) (cap k : Nat) : blockWrite m cap k (blockRead m k) = m := by
  refine Memory.ext_get (blockWrite_wf m hm cap k _) hm fun b => ?_
  rw [blockWrite_get m hm]
  split
  · next h => rw [blockRead_bit m k _ (by omega), Nat.add_sub_of_le h.1]
  · rfl

/-! ### The bit commands -/

/-- Settles O40: the storage that BSET and BCLR leave differs at that one address. -/
theorem bsetAndBclrWriteExactlyOneBit : Obligations.BsetAndBclrWriteExactlyOneBit := by
  intro s c p a hs hready hp
  have hlen := hs.lt_length hready.2
  have ⟨hwf, _⟩ := hs.ctx_inv c
  exact ⟨exec_setMem_frame hlen (exec_writeBit_of_lt hready hp a true) (Memory.get_set _ hwf p.toNat true),
    exec_setMem_frame hlen (exec_writeBit_of_lt hready hp a false) (Memory.get_set _ hwf p.toNat false)⟩

/-- Settles O41: the three commands share the one precondition. -/
theorem bitIndexesAtOrAboveTheCapacityFault : Obligations.BitIndexesAtOrAboveTheCapacityFault := by
  rintro s c p a ⟨hf, hc⟩ hp
  have hi := (hasCtx_iff s.cfg c).mpr hc
  exact ⟨guarded_withBitIndex_of_le _ hf hi hp, guarded_withBitIndex_of_le _ hf hi hp,
    guarded_withBitIndex_of_le _ hf hi hp⟩

/-- Settles O42: an address is in one slot only, at one position of it. -/
theorem writingABitChangesOneBitOfOneItem : Obligations.WritingABitChangesOneBitOfOneItem := by
  intro s c p a hs hready hz hp
  have ⟨hwf, _⟩ := hs.ctx_inv c
  refine ⟨Context.div_isz_lt_cnt hp, fun v => ⟨_, exec_writeBit_of_lt hready hp a v, ?_⟩⟩
  rw [State.reply_ctx, s.setMem_ctx_same c _ (hs.lt_length hready.2)]
  exact ⟨Context.item_set_bit hwf hz p.toNat v, fun _ hi => Context.item_set_other v hi⟩

/-- Settles O43, by BTEST's rule below the capacity. -/
theorem btestAnswersTheBit : Obligations.BtestAnswersTheBit :=
  fun _ _ _ a hready hp => exec_btest_of_lt hready hp a

/-- Settles O44: both commands answer from the same storage bit. -/
theorem btestIsABitOfGetitem : Obligations.BtestIsABitOfGetitem := by
  intro s c p q a hready hz hp hq
  refine ⟨_, exec_getitem_of_lt hready (hq ▸ Context.div_isz_lt_cnt hp) a, ?_⟩
  rw [hq, Context.item_word_bit_of_address hz]
  exact exec_btest_of_lt hready hp a

/-! ### The block commands -/

/-- Settles O45: the bits of the word are the block's bits, and padding is 0 by the invariant. -/
theorem rdblkReadsTheBlock : Obligations.RdblkReadsTheBlock :=
  fun _ c _ a hs hready hk => ⟨_, exec_rdblk_of_lt hready hk a, fun _ => (hs.ctx_inv c).blockRead_bit hk⟩

/-- Settles O46: the storage that WRBLK leaves differs at the block's addresses below the capacity. -/
theorem wrblkWritesTheAddressableBitsOfTheBlock : Obligations.WrblkWritesTheAddressableBitsOfTheBlock := by
  intro s c k v hs hready hk
  have ⟨hwf, _⟩ := hs.ctx_inv c
  exact exec_setMem_frame (hs.lt_length hready.2) (exec_wrblk_of_lt hready hk v) (blockWrite_get _ hwf _ k.toNat v)

/-- Settles O47: a block at or above the count is one that starts at or above the capacity. -/
theorem blockIndexesAtOrAboveTheCountFault : Obligations.BlockIndexesAtOrAboveTheCountFault := by
  rintro s c k v ⟨hf, hc⟩ hk
  have hi := (hasCtx_iff s.cfg c).mpr hc
  have hblk : (s.ctx c).nblk ≤ k.toNat := ((s.ctx c).nblk_le_iff _).mpr hk
  exact ⟨guarded_withBlockIndex_of_le _ hf hi hblk, guarded_withBlockIndex_of_le _ hf hi hblk⟩

/-- Settles O48: the mask bit by bit and at both kinds of block, RDBLK under it, and the crossing slot. -/
theorem blocksAndItemsMeetAsTheSpecSays : Obligations.BlocksAndItemsMeetAsTheSpecSays :=
  ⟨fun _ _ _ => validMask_bit, fun _ _ => Context.validMask_of_lt_last, fun _ _ => Context.validMask_of_last,
    fun _ c _ a hs hready hk => ⟨_, exec_rdblk_of_lt hready hk a, (hs.ctx_inv c).blockRead_and_not_valid hk⟩,
    fun _ _ _ _ => Context.item_testBit_of_crossing⟩

/-- Settles O49: RDBLK reads from the storage that WRBLK left, in a state that is still ready. -/
theorem rdblkAfterWrblkGivesTheValidBits : Obligations.RdblkAfterWrblkGivesTheValidBits := by
  intro s c k v a hs hready hk
  refine ⟨_, exec_wrblk_of_lt hready hk v, ?_⟩
  rw [exec_rdblk_after_setMem hready (hs.lt_length hready.2) hk, (hs.ctx_inv c).blockRead_blockWrite hk]

/-- Settles O50: the storage written back is the storage that was there. -/
theorem writingBackABlockChangesNothing : Obligations.WritingBackABlockChangesNothing := by
  intro s c k a hs hready hk
  have ⟨hwf, _⟩ := hs.ctx_inv c
  refine ⟨_, _, exec_rdblk_of_lt hready hk a, exec_wrblk_of_lt hready hk _, ?_⟩
  rw [blockWrite_blockRead _ hwf, s.setMem_self]
  exact ⟨rfl, rfl, rfl⟩

end Sys2Proof.Machine
end

section
/-! Proofs of the family 41_compact_array.md: CREATE (R101, R102), the item commands (R103 to R108), COPY and the isolation
of copies (R109, R110), INFO (R111), and the restore of a saved context (R112, R113). First what each command does within
and outside its range, then items under a slot write, then the statements. -/

namespace Sys2Proof.Machine

/-! ### Commands past the common checks -/

section
variable {s : State} {c : CtxNum}

/-- The one check on context numbers of a command that uses CTX only (30_encoding.md R66) is part of `Ready`. -/
theorem guarded_of_ready {i : Instr} (hready : s.Ready c) (hi : i.wellFormed s.cfg = s.cfg.hasCtx c) (rule : Result) :
    guarded i s rule = rule := by
  obtain ⟨hf, hc⟩ := hready
  exact guarded_ready rule hf (hi.trans ((hasCtx_iff _ _).mpr hc))

theorem exec_create_of_zeroWidth {m : Word} (hready : s.Ready c) (hrej : s.cfg.zeroWidthReject = true)
    (hm : bitsNeeded m.toNat = 0) (n : Word) : exec (.create c n m) s = .next (s.answeredWith 0x03 []) :=
  (guarded_of_ready hready rfl _).trans (if_pos ⟨hrej, hm⟩)

theorem exec_create_of_width {m : Word} (hready : s.Ready c)
    (hzero : ¬ (s.cfg.zeroWidthReject = true ∧ bitsNeeded m.toNat = 0)) (hw : s.cfg.W ≤ bitsNeeded m.toNat) (n : Word) :
    exec (.create c n m) s = .next (s.answeredWith 0x01 []) :=
  (guarded_of_ready hready rfl _).trans ((if_neg hzero).trans (if_pos hw))

theorem exec_create_of_capacity {n m : Word} (hready : s.Ready c)
    (hzero : ¬ (s.cfg.zeroWidthReject = true ∧ bitsNeeded m.toNat = 0)) (hw : bitsNeeded m.toNat < s.cfg.W)
    (hcap : s.cfg.memBits < n.toNat * bitsNeeded m.toNat) :
    exec (.create c n m) s = .next (s.answeredWith 0x02 []) :=
  (guarded_of_ready hready rfl _).trans ((if_neg hzero).trans ((if_neg (Nat.not_le.mpr hw)).trans (if_pos hcap)))

theorem exec_setitem_of_index_ge {i : Word} (hready : s.Ready c) (hi : (s.ctx c).cnt.toNat ≤ i.toNat) (v : Word) :
    exec (.setitem c i v) s = .next (s.faultedWith 0x42 (encode (.setitem c i v))) :=
  (guarded_of_ready hready rfl _).trans (if_pos hi)

theorem exec_setitem_of_value_gt {i v : Word} (hready : s.Ready c) (hi : i.toNat < (s.ctx c).cnt.toNat)
    (hv : maxItem (s.ctx c).isz.toNat < v.toNat) :
    exec (.setitem c i v) s = .next (s.faultedWith 0x43 (encode (.setitem c i v))) :=
  (guarded_of_ready hready rfl _).trans ((if_neg (Nat.not_le.mpr hi)).trans (if_pos hv))

theorem exec_setitem_of_le {i v : Word} (hready : s.Ready c) (hi : i.toNat < (s.ctx c).cnt.toNat)
    (hv : v.toNat ≤ maxItem (s.ctx c).isz.toNat) :
    exec (.setitem c i v) s =
      .next ((s.setMem c (memWrite (s.ctx c).mem ((s.ctx c).off i.toNat) (s.ctx c).isz.toNat v)).reply .ok []) :=
  (Writes.setitem c i v hi hv).exec_eq hready.1 ((hasCtx_iff _ _).mpr hready.2)

theorem exec_getitem_of_index_ge {i : Word} (hready : s.Ready c) (hi : (s.ctx c).cnt.toNat ≤ i.toNat) (a : Word) :
    exec (.getitem c i a) s = .next (s.faultedWith 0x42 (encode (.getitem c i a))) :=
  (guarded_of_ready hready rfl _).trans (if_pos hi)

theorem exec_getitems_of_ready (hready : s.Ready c) (a b : Word) :
    exec (.getitems c a b) s = .next (s.answeredWith 0x00 (s.ctx c).items) :=
  guarded_of_ready hready rfl _

theorem exec_info_of_ready (hready : s.Ready c) (a b : Word) :
    exec (.info c a b) s = .next (s.answeredWith 0x00
      [(s.ctx c).tag.code.setWidth 64, (s.ctx c).isz.setWidth 64, (s.ctx c).cnt]) :=
  guarded_of_ready hready rfl _

theorem exec_copy_of_ready {d : CtxNum} (hready : s.Ready d) (hc : c.toNat < s.cfg.nCtx) (a b : Word) :
    exec (.copy d c a b) s = .next ((s.setCtx d (s.ctx c)).reply .ok []) := by
  obtain ⟨hf, hd⟩ := hready
  have hwf : (Instr.copy d c a b).wellFormed s.cfg = true := by
    rw [Instr.wellFormed, Bool.and_eq_true, hasCtx_iff, hasCtx_iff]
    exact ⟨hd, hc⟩
  exact (Writes.copy d c a b hc).exec_eq hf hwf

/-- GETITEM answers alike in two states where it finds the same count and, if the item exists, the same value. -/
theorem sameAnswer_getitem {t : State} {j : Word} (hs : s.Ready c) (ht : t.Ready c)
    (hcnt : (t.ctx c).cnt = (s.ctx c).cnt)
    (hitem : j.toNat < (s.ctx c).cnt.toNat → (t.ctx c).item j.toNat = (s.ctx c).item j.toNat) (a : Word) :
    SameAnswer (.getitem c j a) s t := by
  by_cases hj : j.toNat < (s.ctx c).cnt.toNat
  · have hexec := exec_getitem_of_lt ht (hcnt ▸ hj) a
    rw [hitem hj] at hexec
    exact ⟨_, _, _, exec_getitem_of_lt hs hj a, hexec, rfl, rfl⟩
  · replace hj := Nat.le_of_not_lt hj
    exact ⟨_, _, _, exec_getitem_of_index_ge hs hj a, exec_getitem_of_index_ge ht (hcnt ▸ hj) a, rfl, rfl⟩

/-- A write of any context leaves every context ready that was. -/
theorem State.Ready.write (h : s.Ready c) (d : CtxNum) (x : Context) : ((s.setCtx d x).reply .ok []).Ready c := h

/-- GETITEM reads the storage that the command before it left. -/
theorem exec_getitem_after_setMem {i : Word} {m : Memory} (hready : s.Ready c) (hc : c.toNat < s.ctxs.length)
    (hi : i.toNat < (s.ctx c).cnt.toNat) (a : Word) :
    exec (.getitem c i a) ((s.setMem c m).reply .ok []) = .next (((s.setMem c m).reply .ok []).answeredWith 0x00
      [BitVec.ofNat 64 (({ s.ctx c with mem := m } : Context).item i.toNat)]) := by
  have hctx : ((s.setMem c m).reply .ok []).ctx c = { s.ctx c with mem := m } := s.setMem_ctx_same c m hc
  have hready' : ((s.setMem c m).reply .ok []).Ready c := hready.write c _
  rw [exec_getitem_of_lt hready' (by rwa [hctx]) a, hctx]

theorem sameAnswer_getitem_after_setMem {j : Word} {m : Memory} (hready : s.Ready c) (hc : c.toNat < s.ctxs.length)
    (hitem : ({ s.ctx c with mem := m } : Context).item j.toNat = (s.ctx c).item j.toNat) (a : Word) :
    SameAnswer (.getitem c j a) s ((s.setMem c m).reply .ok []) := by
  have hctx : ((s.setMem c m).reply .ok []).ctx c = { s.ctx c with mem := m } := s.setMem_ctx_same c m hc
  have hready' : ((s.setMem c m).reply .ok []).Ready c := hready.write c _
  exact sameAnswer_getitem hready hready' (by rw [hctx]) (fun _ => by rwa [hctx]) a

end

/-! ### Items under a slot write -/

/-- An item written with a value of its width reads as that value (41_compact_array.md R106). -/
theorem Context.item_memWrite_same {x : Context} (hwf : x.mem.wf) (i : Nat) {v : Word}
    (hv : v.toNat ≤ maxItem x.isz.toNat) :
    BitVec.ofNat 64 (({ x with mem := memWrite x.mem (x.off i) x.isz.toNat v } : Context).item i) = v := by
  have hlt : v.toNat < 2 ^ x.isz.toNat := Nat.lt_of_le_sub_one (Nat.two_pow_pos _) hv
  refine BitVec.eq_of_getLsbD_eq fun j _ => ?_
  rw [Context.item_word_bit, memWrite_get _ hwf, ← Context.off]
  by_cases hj : j < x.isz.toNat
  · simp [hj, Context.off]
  · have hhigh : v.getLsbD j = false :=
      Nat.testBit_lt_two_pow (hlt.trans_le (Nat.pow_le_pow_right Nat.two_pos (Nat.le_of_not_lt hj)))
    simp [hj, hhigh]

/-- The slots of two items have no bit address in common (20_memory.md R41). -/
theorem Context.slots_disjoint (x : Context) {i j p : Nat} (hne : j ≠ i) (hp : p < x.isz.toNat) :
    ¬ (x.off i ≤ x.off j + p ∧ x.off j + p < x.off i + x.isz.toNat) := by
  rintro ⟨hlow, hhigh⟩
  have hq : x.off j + p - x.off i < x.isz.toNat := by omega
  have hi : i = (x.off j + p) / x.isz.toNat := ((slot_address_eq_iff hq).mp (Nat.add_sub_of_le hlow)).1
  have hj : j = (x.off j + p) / x.isz.toNat := ((slot_address_eq_iff hp).mp rfl).1
  exact hne (hj.trans hi.symm)

theorem Context.item_memWrite_other {x : Context} (hwf : x.mem.wf) {i j : Nat} (hne : j ≠ i) (v : Word) :
    ({ x with mem := memWrite x.mem (x.off i) x.isz.toNat v } : Context).item j = x.item j :=
  memRead_congr fun _ hp => (memWrite_get _ hwf _ _ _ _).trans (if_neg (x.slots_disjoint hne hp))

/-! ### CREATE -/

theorem bitsNeeded_eq_zero_iff {v : Nat} : bitsNeeded v = 0 ↔ v = 0 := by
  rw [← Nat.le_zero, bitsNeeded_le_iff, pow_zero, Nat.lt_one_iff]

/-- Settles O30: CREATE writes the configured context with clear storage, and nothing else. -/
theorem createConfiguresAndClearsTheContext : Obligations.CreateConfiguresAndClearsTheContext := by
  intro s c n m hs hready hzero hw hcap
  obtain ⟨hf, hc⟩ := hready
  have hctx : ((s.setCtx c (createdContext n (bitsNeeded m.toNat))).reply .ok []).ctx c =
    createdContext n (bitsNeeded m.toNat) := s.setCtx_ctx_same c _ (hs.lt_length hc)
  refine ⟨_, (Writes.create c n m hzero hw hcap).exec_eq hf ((hasCtx_iff _ _).mpr hc), rfl, ?_, ?_, ?_, fun b => ?_,
    fun _ => s.setCtx_ctx_other _, rfl, rfl, rfl⟩
  · rw [hctx, createdContext]
  · rw [hctx, createdContext_isz_toNat n (hw.trans_le hs.1.2.1)]
  · rw [hctx, createdContext]
  · rw [State.bit, hctx]
    exact Memory.clear_get b

/-- Settles O31: each error is answered where the checks before it pass; `maxValue` has no digit only when it is 0. -/
theorem configurationErrorsChangeNothing : Obligations.ConfigurationErrorsChangeNothing := by
  rintro s c n m ⟨hW, -⟩ hready
  have hdigits : bitsNeeded m.toNat = 0 ↔ m = 0 := 
    bitsNeeded_eq_zero_iff.trans (BitVec.toNat_inj (y := 0))
  refine ⟨fun ⟨hrej, hm⟩ => exec_create_of_zeroWidth hready hrej (hdigits.mpr hm) n, fun hw => ?_,
    fun ⟨hzero, hw, hcap⟩ => ?_⟩
  · exact exec_create_of_width hready (fun ⟨_, hm⟩ => by omega) hw n
  · exact exec_create_of_capacity hready (by rwa [hdigits]) hw hcap

/-! ### The item commands -/

/-- Settles O32: the storage that SETITEM leaves differs at the addresses of the slot. -/
theorem setitemWritesExactlyItsSlot : Obligations.SetitemWritesExactlyItsSlot := by
  intro s c i v hs hready hi hv
  have ⟨hwf, _⟩ := hs.ctx_inv c
  exact exec_setMem_frame (hs.lt_length hready.2) (exec_setitem_of_le hready hi hv) (memWrite_get _ hwf _ _ v)

/-- Settles O33: the first check is on the index in both commands, the second on SETITEM's value. -/
theorem itemCommandsFaultOnIndexThenValue : Obligations.ItemCommandsFaultOnIndexThenValue :=
  fun _ _ _ v hready => ⟨fun hi => ⟨exec_setitem_of_index_ge hready hi v, exec_getitem_of_index_ge hready hi v⟩,
    exec_setitem_of_value_gt hready⟩

/-- Settles O34: the word answered is the item's value, whose bits are the slot's. -/
theorem getitemReadsItsSlot : Obligations.GetitemReadsItsSlot := by
  intro s c i a hready hi
  refine ⟨_, exec_getitem_of_lt hready hi a, ?_, (s.ctx c).item_word_bit i.toNat⟩
  exact (Nat.mod_le _ _).trans_lt ((s.ctx c).item_lt i.toNat)

/-- Settles O35: SETITEM leaves the context ready, with the value in the one slot and the other slots as they were. -/
theorem itemsRoundTripAndAreIndependent : Obligations.ItemsRoundTripAndAreIndependent := by
  intro s c i v hs hready hi hv
  have ⟨hwf, _⟩ := hs.ctx_inv c
  have hlen := hs.lt_length hready.2
  refine ⟨_, exec_setitem_of_le hready hi hv, fun a => ?_, fun j a hj => ?_⟩
  · rw [exec_getitem_after_setMem hready hlen hi, Context.item_memWrite_same hwf _ hv]
  · have hne : j.toNat ≠ i.toNat := fun h => hj (BitVec.eq_of_toNat_eq h)
    exact sameAnswer_getitem_after_setMem hready hlen (Context.item_memWrite_other hwf hne v) a

/-- Settles O36: both commands answer from the list of the item values. -/
theorem getitemsListsEveryItemInOrder : Obligations.GetitemsListsEveryItemInOrder :=
  fun s c a b hready => ⟨_, exec_getitems_of_ready hready a b, (s.ctx c).items_length,
    fun _ hk => ⟨_, (s.ctx c).items_get hk, exec_getitem_of_lt hready hk 0⟩⟩

/-! ### COPY and INFO -/

/-- Settles O37: COPY writes the source context, whole, to the destination. -/
theorem copyDuplicatesTheSourceContext : Obligations.CopyDuplicatesTheSourceContext := by
  intro s d c a b hs hready hc
  have hctx : ((s.setCtx d (s.ctx c)).reply .ok []).ctx d = s.ctx c := s.setCtx_ctx_same d _ (hs.lt_length hready.2)
  refine ⟨_, exec_copy_of_ready hready hc a b, rfl, ?_, ?_, ?_, fun p => ?_, fun _ => s.setCtx_ctx_other _, ?_, rfl, rfl, rfl⟩
  · rw [hctx]
  · rw [hctx]
  · rw [hctx]
  · rw [State.bit, hctx, State.bit]
  · rintro rfl
    rw [s.setCtx_self, State.reply_ctxs]

/-- A command on another context that leaves the record as it was leaves the answer of every GETITEM. -/
theorem sameAnswer_getitem_of_other_target {s t : State} {c c' : CtxNum} {i : Instr} (hready : s.Ready c)
    (hi : targetOf i = some c') (hne : c ≠ c') (h : exec i s = .next t) (hrec : t.record = s.record) (j a : Word) :
    SameAnswer (.getitem c j a) s t := by
  obtain ⟨t', ht', hcfg, -, -, hother⟩ := commandsChangeOnlyTheirOwnContext i s
  cases ht'.symm.trans h
  have hctx : t.ctx c = s.ctx c := hother c fun h => hne (Option.some.inj (h.symm.trans hi))
  have hready' : t.Ready c := by rwa [State.Ready, hrec, hcfg]
  exact sameAnswer_getitem hready hready' (by rw [hctx]) (fun _ => by rw [hctx]) a

/-- Settles O38: each of the five commands writes the context it names and no other, and COPY leaves both ready. -/
theorem copiesAreIsolatedFromEachOther : Obligations.CopiesAreIsolatedFromEachOther := by
  rintro s t u A B X Y a b w hs ⟨hf, hA⟩ hB hne hcopy hXY hw hexec hrec j p
  cases (exec_copy_of_ready ⟨hf, hB⟩ hA a b).symm.trans hcopy
  have htarget : targetOf w = some Y := by
    obtain ⟨p, q, rfl | rfl | rfl | rfl | rfl⟩ := hw <;> rfl
  obtain ⟨rfl, rfl⟩ | ⟨rfl, rfl⟩ := hXY
  · exact sameAnswer_getitem_of_other_target (State.Ready.write ⟨hf, hA⟩ _ _) htarget hne hexec hrec j p
  · exact sameAnswer_getitem_of_other_target (State.Ready.write ⟨hf, hB⟩ _ _) htarget hne.symm hexec hrec j p

theorem Tag.code_word (t : Tag) : t.code.setWidth 64 = if t = .configured then 1 else 0 := by
  cases t <;> rfl

/-- Settles O39: the three words of INFO, each at its encoding; an EMPTY context has width and count 0 (10_state.md R24). -/
theorem infoReadsTheConfiguration : Obligations.InfoReadsTheConfiguration := by
  intro s c a b hready
  have hinfo := exec_info_of_ready hready a b
  refine ⟨?_, fun hs htag => ?_⟩
  · rwa [Tag.code_word, ← BitVec.ofNat_toNat] at hinfo
  · obtain ⟨-, -, hempty, -⟩ := hs.ctx_inv c
    obtain ⟨hisz, hcnt⟩ := hempty htag
    rwa [htag, hisz, hcnt] at hinfo

/-! ### Restore of a saved context -/

/-- The commands that restore context `x` into context `d` up to its first `k` blocks: CREATE of its width and count, then
WRBLK of each block as RDBLK reads it (41_compact_array.md R112). -/
def restoreCommands (d : CtxNum) (x : Context) (k : Nat) : List Instr :=
  .create d x.cnt (BitVec.ofNat 64 (maxItem x.isz.toNat)) ::
    (List.range k).map fun j => .wrblk d (BitVec.ofNat 64 j) (blockRead x.mem j)

theorem restoreCommands_length (d : CtxNum) (x : Context) (k : Nat) : (restoreCommands d x k).length = k + 1 := by
  simp [restoreCommands]

theorem restoreCommands_succ (d : CtxNum) (x : Context) (k : Nat) :
    restoreCommands d x (k + 1) = restoreCommands d x k ++ [.wrblk d (BitVec.ofNat 64 k) (blockRead x.mem k)] := by
  simp [restoreCommands, List.range_succ]

theorem writeBlocksFrom_map_range' (d : CtxNum) (f : Nat → Word) (k n : Nat) :
    writeBlocksFrom d k ((List.range' k n).map f) =
      (List.range' k n).map fun j => .wrblk d (BitVec.ofNat 64 j) (f j) := by
  induction n generalizing k with
  | zero => rfl
  | succ n ih => simp [List.range'_succ, writeBlocksFrom, ih]

/-- A field whose zero is omitted reads back as it was (log 18). -/
theorem getD_omitted_zero {n : Nat} (v : BitVec n) : (if v = 0 then none else some v).getD 0 = v := by
  split
  · next h => exact h.symm
  · rfl

theorem Context.save_item (x : Context) : x.save.item.getD 0 = x.isz := getD_omitted_zero x.isz

theorem Context.save_count (x : Context) : x.save.count.getD 0 = x.cnt := getD_omitted_zero x.cnt

/-- The host layout of 41_compact_array.md R113 gives those commands (log 18). -/
theorem Context.save_restore (x : Context) (d : CtxNum) : x.save.restore d = restoreCommands d x x.nblk := by
  have hblocks : writeBlocksFrom d 0 x.save.blocks =
      (List.range x.nblk).map fun k => .wrblk d (BitVec.ofNat 64 k) (blockRead x.mem k) := by
    simp only [Context.save, List.range_eq_range', writeBlocksFrom_map_range']
  rw [SavedContext.restore, x.save_item, x.save_count, createw_of_le d x.cnt x.isz_le, hblocks]
  rfl

/-- The block count fits a word, for an item has at most 63 bits. -/
theorem Context.nblk_lt (x : Context) : x.nblk < 2 ^ 64 := by
  have hcap : x.cap ≤ (2 ^ 64 - 1) * 63 := Nat.mul_le_mul (Nat.le_sub_one_of_lt x.cnt.isLt) x.isz_le
  unfold Context.nblk Config.blockBits
  omega

/-- The context that CREATE makes of the width and count of a CONFIGURED context is that context without its bits. -/
theorem createdContext_of_configured {x : Context} (htag : x.tag = .configured) :
    createdContext x.cnt x.isz.toNat = { x with mem := Memory.clear } := by
  simp [createdContext, htag]

theorem execAll_concat {is : List Instr} {i : Instr} {s t u : State} (hs : execAll is s = .next t)
    (ht : exec i t = .next u) : execAll (is ++ [i]) s = .next u := by
  induction is generalizing s with
  | nil =>
    cases hs
    exact execAll_cons [] ht
  | cons i' is ih =>
    obtain ⟨t', ht', -⟩ := commandsChangeOnlyTheirOwnContext i' s
    rw [execAll_cons is ht'] at hs
    exact (execAll_cons (is ++ [i]) ht').trans (ih hs)

/-- `RestoredUpTo s d x k t`: from `s`, CREATE and the first `k` WRBLKs of the restore of `x` into context `d` have led to
`t`. Context `d` is `x` with the bits of those blocks and no others, and each command has answered OK. -/
structure RestoredUpTo (s : State) (d : CtxNum) (x : Context) (k : Nat) (t : State) : Prop where
  ctx : ∃ m, t.ctx d = { x with mem := m } ∧ m.wf ∧ ∀ b, m.get b = (decide (b < 64 * k ∧ b < x.cap) && x.mem.get b)
  others : ∀ c', c' ≠ d → t.ctx c' = s.ctx c'
  length : t.ctxs.length = s.ctxs.length
  record : t.record = s.record
  cfg : t.cfg = s.cfg
  inbox : t.inbox = s.inbox
  outbox : t.outbox = s.outbox ++ List.replicate (k + 1) { status := 0x00, data := [] }

section
variable {s : State} {d : CtxNum} {x : Context}

/-- CREATE begins the restore. -/
theorem exec_create_restoredUpTo (hs : s.Inv) (hready : s.Ready d) (hx : x.Inv s.cfg) (htag : x.tag = .configured) :
    ∃ t, exec (.create d x.cnt (BitVec.ofNat 64 (maxItem x.isz.toNat))) s = .next t ∧ RestoredUpTo s d x 0 t := by
  obtain ⟨-, -, -, hw, hcap, hrej, -⟩ := hx
  have hzero : ¬ (s.cfg.zeroWidthReject = true ∧ x.isz.toNat = 0) :=
    fun ⟨h, hz⟩ => hrej h htag (BitVec.eq_of_toNat_eq hz)
  refine ⟨_, exec_create_maxItem hready x.isz_le hw hzero hcap, ?_⟩
  have hctx := s.setCtx_ctx_same d (createdContext x.cnt x.isz.toNat) (hs.lt_length hready.2)
  exact {
    ctx := ⟨Memory.clear, hctx.trans (createdContext_of_configured htag), Memory.clear_wf, by simp⟩
    others := fun _ => s.setCtx_ctx_other _
    length := List.length_set
    record := rfl
    cfg := rfl
    inbox := rfl
    outbox := rfl }

/-- A block write adds the bits of one block to those of the blocks before it. -/
theorem blockWrite_get_of_blocks_below {m : Memory} (hm : m.wf) {k : Nat}
    (hbits : ∀ b, m.get b = (decide (b < 64 * k ∧ b < x.cap) && x.mem.get b)) (b : Nat) :
    (blockWrite m x.cap k (blockRead x.mem k)).get b =
      (decide (b < 64 * (k + 1) ∧ b < x.cap) && x.mem.get b) := by
  rw [blockWrite_get m hm, hbits]
  split
  · next h =>
    have hnew : b < 64 * (k + 1) ∧ b < x.cap := by omega
    rw [blockRead_bit x.mem k _ (by omega), Nat.add_sub_of_le h.1, decide_eq_true hnew, Bool.true_and]
  · next h =>
    have hold : (b < 64 * k ∧ b < x.cap) ↔ (b < 64 * (k + 1) ∧ b < x.cap) := by omega
    simp only [hold]

/-- WRBLK of the next block goes on with the restore. -/
theorem RestoredUpTo.exec_wrblk {t : State} {k : Nat} (h : RestoredUpTo s d x k t) (hs : s.Inv) (hready : s.Ready d)
    (hk : k < x.nblk) :
    ∃ u, exec (.wrblk d (BitVec.ofNat 64 k) (blockRead x.mem k)) t = .next u ∧ RestoredUpTo s d x (k + 1) u := by
  obtain ⟨⟨m, hctx, hwf, hbits⟩, hothers, hlen, hrec, hcfg, hin, hout⟩ := h
  have hindex : (BitVec.ofNat 64 k).toNat = k := Nat.mod_eq_of_lt (hk.trans x.nblk_lt)
  have hready' : t.Ready d := by rwa [State.Ready, hrec, hcfg]
  have hlen' : d.toNat < t.ctxs.length := hlen ▸ hs.lt_length hready.2
  have hexec := exec_wrblk_of_lt (k := BitVec.ofNat 64 k) hready' (by rwa [hindex, hctx]) (blockRead x.mem k)
  rw [hindex, hctx] at hexec
  have hctx' := t.setMem_ctx_same d (blockWrite m x.cap k (blockRead x.mem k)) hlen'
  rw [hctx] at hctx'
  exact ⟨_, hexec, {
    ctx := ⟨_, hctx', blockWrite_wf m hwf x.cap k _, blockWrite_get_of_blocks_below hwf hbits⟩
    others := fun c' hc' => (t.setMem_ctx_other _ hc').trans (hothers c' hc')
    length := List.length_set.trans hlen
    record := hrec
    cfg := hcfg
    inbox := hin
    outbox := by
      rw [State.reply_outbox, State.setMem_outbox, hout, List.append_assoc, List.replicate_succ' (n := k + 1)]
      rfl }⟩

/-- The restore up to any block, by induction on the blocks. -/
theorem execAll_restoreCommands (hs : s.Inv) (hready : s.Ready d) (hx : x.Inv s.cfg) (htag : x.tag = .configured)
    {k : Nat} (hk : k ≤ x.nblk) : ∃ t, execAll (restoreCommands d x k) s = .next t ∧ RestoredUpTo s d x k t := by
  induction k with
  | zero =>
    obtain ⟨t, ht, hrest⟩ := exec_create_restoredUpTo hs hready hx htag
    exact ⟨t, execAll_cons [] ht, hrest⟩
  | succ k ih =>
    obtain ⟨t, ht, hrest⟩ := ih (Nat.le_of_succ_le hk)
    obtain ⟨u, hu, hrest'⟩ := hrest.exec_wrblk hs hready hk
    exact ⟨u, restoreCommands_succ d x k ▸ execAll_concat ht hu, hrest'⟩

/-- All the blocks hold all the storage bits of the context: padding is 0 in both (10_state.md R26). -/
theorem RestoredUpTo.bit_eq {t : State} (h : RestoredUpTo s d x x.nblk t) {cfg : Config} (hx : x.Inv cfg) {b : Nat}
    (hb : b < 64 * x.nblk) : t.bit d b = x.mem.get b := by
  obtain ⟨m, hctx, -, hbits⟩ := h.ctx
  rw [State.bit, hctx, hbits]
  by_cases hcap : b < x.cap
  · simp [hb, hcap]
  · obtain ⟨-, -, -, -, -, -, hpad⟩ := hx
    simp [hpad b hb (Nat.le_of_not_lt hcap)]

/-- A CREATE that is not accepted changes no context, and one that is leaves its context CONFIGURED. -/
theorem exec_create_configures_or_keeps (hs : s.Inv) {n m : Word} {u : State} (h : exec (.create d n m) s = .next u) :
    u.ctxs = s.ctxs ∨ (u.ctx d).tag = .configured := by
  obtain ⟨st, data, he, -, -⟩ | ⟨-, f, he⟩ | ⟨-, -, c, y, hc, hw, he⟩ := exec_shape (.create d n m) s
  · cases he.symm.trans h
    exact .inl rfl
  · cases he.symm.trans h
    exact .inl rfl
  · cases he.symm.trans h
    cases hw with
    | create _ _ _ _ _ _ =>
      have hctx := s.setCtx_ctx_same d (createdContext n (bitsNeeded m.toNat)) (hs.lt_length hc)
      exact .inr (congrArg Context.tag hctx)

end

/-- Settles O54: the run is the fold of the restore commands, which leaves all the blocks restored. -/
theorem restoreRebuildsTheSavedContext : Obligations.RestoreRebuildsTheSavedContext := by
  intro s x d es hs hready hx htag hin
  refine ⟨?_, x.save_restore d, fun n m u => exec_create_configures_or_keeps hs⟩
  obtain ⟨t, ht, hrest⟩ := execAll_restoreCommands (hs.withInbox es) hready hx htag (le_refl x.nblk)
  obtain ⟨m, hctx, -, -⟩ := hrest.ctx
  have hrun := runsAreTheFoldOfTheCommands (restoreCommands d x x.nblk) s es hin
  rw [restoreCommands_length, ht] at hrun
  exact ⟨t, hrun, hrest.inbox, hrest.record, hrest.cfg, hrest.outbox, by rw [hctx], by rw [hctx], by rw [hctx],
    fun _ => hrest.bit_eq hx, hrest.others⟩

end Sys2Proof.Machine
end

section
/-! Proofs of the family 42_status.md: FINFO reads the fault record (R130), and only reset clears it (R131). -/

namespace Sys2Proof.Machine

/-! ### What clears the fault record -/

/-- A step that takes no reset leaves a recorded fault as it is (60_exceptions.md R145: the first fault stays). -/
theorem StepEffect.record_eq_of_recorded {s t : State} (h : StepEffect s t) (hs : s.record.fault = true)
    (hin : s.inbox = [] ∨ ∃ r es, s.inbox = .request r :: es) : t.record = s.record := by
  cases h with
  | idle hnone => rfl
  | reset es hreset =>
    obtain hreset | ⟨r, hreset⟩ := hreset <;> simp [hreset] at hin
  | answer r es hreq st d hst => rfl
  | fault r es hreq hf f r' => exact absurd (hs.symm.trans hf) nofun
  | write r es hreq hf i c x hw => exact absurd (hs.symm.trans hf) nofun

/-- Settles O12: a step that is no reset writes the record only where no fault is recorded, and a reset clears it. -/
theorem onlyResetClearsTheFaultRecord : Obligations.OnlyResetClearsTheFaultRecord := by
  refine fun s t h => ⟨(step_effect h).record_eq_of_recorded, fun ⟨es, hreset⟩ => ?_⟩
  cases (step_reset hreset).symm.trans h
  exact State.resetBlock_record { s with inbox := es }

/-! ### What FINFO reads -/

/-- The words of FINFO are the fields of the record, each zero-extended (42_status.md R130). -/
theorem FaultRecord.words_eq (f : FaultRecord) :
    f.words = [if f.fault = true then 1 else 0, BitVec.ofNat 64 f.fcode.toNat, BitVec.ofNat 64 f.fcmd.toNat,
      f.farg0, f.farg1] := by
  rw [BitVec.ofNat_toNat, BitVec.ofNat_toNat]
  rfl

@[simp] theorem FaultRecord.words_clear : FaultRecord.clear.words = [0, 0, 0, 0, 0] := rfl

/-- FINFO passes the common checks in every state and answers the words of the record (60_exceptions.md R145). -/
theorem exec_finfo (a b : Word) (s : State) : exec (.finfo a b) s = .next (s.answeredWith 0x00 s.record.words) :=
  guarded_finfo a b s _

/-- Settles O51: FINFO answers the words of the record, and under the invariant a record with no fault is clear. -/
theorem finfoReadsTheFaultRecord : Obligations.FinfoReadsTheFaultRecord := by
  refine fun s a b => ⟨s.record.words_eq ▸ exec_finfo a b s, fun ⟨_, _, _, hclear, _⟩ hf => ?_⟩
  rw [exec_finfo, hclear hf, FaultRecord.words_clear]

end Sys2Proof.Machine
end

section
/-! Proofs of the family 60_exceptions.md: the order of checks of every request (R144, with R66), the refusal after a fault
(R145), fault entry (R143), and the statuses and lengths of responses (R140, with 30_encoding.md R68). -/

namespace Sys2Proof

/-! ### Well-formed words and well-formed commands -/

/-- One row of the table at most accepts a word. -/
theorem eq_of_rows_accept {p q : EncodingRow} {w : CmdWord} (hp : p ∈ encodingTable) (hq : q ∈ encodingTable)
    (hpw : p.accepts w = true) (hqw : q.accepts w = true) : p = q := by
  have hsymm : Std.Symm fun p q : EncodingRow => p.bits &&& q.mask ≠ q.bits &&& p.mask := ⟨fun _ _ h => h.symm⟩
  by_contra hne
  exact encodingTable_bits_disagree.forall hp hq hne (EncodingRow.bits_agree hpw hqw)

@[simp] theorem copyRow_accepts_cmdWord (o : BitVec 8) (c s : CtxNum) :
    copyRow.accepts (cmdWord o c s) = true ↔ o = 0x05 := by
  rw [EncodingRow.accepts_iff, show copyRow.mask = 0xFFFF00FF from rfl, Laws.EncodeMatchesRow.copy_row]
  rw [show copyRow.bits = cmdWord 0x05 0 0 by decide]
  exact ⟨fun h => by simpa using congrArg opcField h, fun h => by rw [h]⟩

@[simp] theorem cmdWord_eq_finfoWord_iff (o : BitVec 8) (c s : CtxNum) :
    cmdWord o c s = finfoWord ↔ o = 0x0F ∧ c = 0 ∧ s = 0 := by
  rw [show finfoWord = cmdWord 0x0F 0 0 by decide]
  refine ⟨fun h => ⟨?_, ?_, ?_⟩, fun ⟨ho, hc, hs⟩ => by rw [ho, hc, hs]⟩
  · simpa using congrArg opcField h
  · simpa using congrArg ctxField h
  · simpa using congrArg srcField h

end Sys2Proof

namespace Sys2Proof.Machine

/-- Check (3) of 30_encoding.md R66 is of the words that COPY's row accepts, whatever row is looked at. -/
theorem wellFormedCmd_iff_checks (cfg : Config) (w : CmdWord) :
    wellFormedCmd cfg w ↔ (∃ row ∈ encodingTable, row.accepts w = true) ∧
      (w = finfoWord ∨ (ctxField w).toNat < cfg.nCtx) ∧ (copyRow.accepts w = true → (srcField w).toNat < cfg.nCtx) := by
  have hcopy : copyRow ∈ encodingTable := by decide
  constructor
  · rintro ⟨row, hrow, hacc, hctx, hsrc⟩
    exact ⟨⟨row, hrow, hacc⟩, hctx, fun h => hsrc.neg_resolve_left (eq_of_rows_accept hrow hcopy hacc h)⟩
  · rintro ⟨⟨row, hrow, hacc⟩, hctx, hsrc⟩
    refine ⟨row, hrow, hacc, hctx, or_iff_not_imp_left.mpr fun h => hsrc ?_⟩
    rwa [← not_not.mp h]

/-- The checks of 30_encoding.md R66 on a command's word are the command's own. -/
theorem wellFormedCmd_encode_iff (cfg : Config) (i : Instr) :
    wellFormedCmd cfg (encode i).cmd ↔ i.wellFormed cfg = true := by
  rw [wellFormedCmd_iff_checks, and_iff_right (exists_row_accepts_encode i)]
  cases i with
  | finfo a b => simp [encode, Instr.wellFormed]
  | create | setitem | getitem | getitems | copy | info | bset | bclr | btest | rdblk | wrblk =>
    simp [encode, Instr.wellFormed, hasCtx_iff]

/-- The well-formed requests are the encodings of the well-formed commands. -/
theorem wellFormedCmd_iff_presents (cfg : Config) (r : Request) :
    wellFormedCmd cfg r.cmd ↔ ∃ i, encode i = r ∧ i.wellFormed cfg = true := by
  constructor
  · intro h
    have ⟨row, hrow, hacc, _, _⟩ := h
    obtain ⟨i, rfl⟩ := presents_of_row_accepts hrow hacc
    exact ⟨i, rfl, (wellFormedCmd_encode_iff cfg i).mp h⟩
  · rintro ⟨i, rfl, hi⟩
    exact (wellFormedCmd_encode_iff cfg i).mpr hi

/-! ### The refusal after a fault -/

/-- After a fault every command but FINFO is refused (60_exceptions.md R145). -/
theorem exec_refused {i : Instr} {s : State} (hf : s.record.fault = true) (hi : ∀ a b, i ≠ .finfo a b) :
    exec i s = .next (s.reply .faulted []) := by
  cases i with
  | finfo a b => exact absurd rfl (hi a b)
  | create | setitem | getitem | getitems | copy | info | bset | bclr | btest | rdblk | wrblk =>
    exact guarded_refused _ hf hi

/-- Settles O9: the eleven commands are refused by the common checks, which FINFO alone passes. -/
theorem commandsAreRefusedAfterAFault : Obligations.CommandsAreRefusedAfterAFault := by
  refine fun i s hf => ⟨exec_refused hf, ?_⟩
  rintro ⟨a, b, rfl⟩
  exact ⟨s.record.words, exec_finfo a b s⟩

/-! ### The order of checks -/

/-- With a fault recorded, a request that is not a well-formed FINFO is refused, whether or not it decodes. -/
theorem step_refused {s : State} {r : Request} {es : List PortEvent} (hin : s.inbox = .request r :: es)
    (hf : s.record.fault = true) (hr : ¬ (wellFormedCmd s.cfg r.cmd ∧ r.cmd = finfoWord)) :
    step s = .next (State.reply { s with inbox := es } .faulted []) := by
  cases hdec : decode r with
  | error e => rw [step_undecodable hin hdec, undecodable_eq, if_pos hf]
  | ok i =>
    obtain rfl := encode_of_decode hdec
    have hi : ∀ a b, i ≠ .finfo a b := by
      rintro a b rfl
      exact hr ⟨(wellFormedCmd_encode_iff _ _).mpr rfl, (encode_cmd_eq_finfoWord_iff _).mpr ⟨a, b, rfl⟩⟩
    exact (step_command hin hdec).trans (exec_refused hf hi)

/-- With no fault recorded, a request that is not well-formed raises `F_ILLEGAL`, whether or not it decodes. -/
theorem step_illFormed {s : State} {r : Request} {es : List PortEvent} (hin : s.inbox = .request r :: es)
    (hf : s.record.fault = false) (hr : ¬ wellFormedCmd s.cfg r.cmd) :
    step s = raiseFault .illegal r { s with inbox := es } := by
  cases hdec : decode r with
  | error e => exact (step_undecodable hin hdec).trans (undecodable_ready r hf)
  | ok i =>
    obtain rfl := encode_of_decode hdec
    have hi : i.wellFormed s.cfg = false := by rwa [wellFormedCmd_encode_iff, Bool.not_eq_true] at hr
    exact (step_command hin hdec).trans (exec_illFormed hf hi)

/-- Settles O7: refusal, ill-formedness, and otherwise the command that the request encodes. -/
theorem requestsAreCheckedInTheOrderOfTheSpec : Obligations.RequestsAreCheckedInTheOrderOfTheSpec := by
  refine fun s r es hin => ⟨fun ⟨hf, hr⟩ => step_refused hin hf hr, fun ⟨hf, hr⟩ => step_illFormed hin hf hr, ?_⟩
  rintro ⟨hr, -⟩
  obtain ⟨i, rfl, hi⟩ := (wellFormedCmd_iff_presents s.cfg r).mp hr
  exact ⟨i, rfl, hi, step_encoded hin⟩

/-! ### Fault entry -/

/-- A command that records a fault where none was has done fault entry for its own encoding. -/
theorem exec_of_rise {i : Instr} {s t : State} (h : exec i s = .next t) (hs : s.record.fault = false)
    (ht : t.record.fault = true) : ∃ f, exec i s = raiseFault f (encode i) s := by
  obtain ⟨st, d, he, -, -⟩ | ⟨-, hfault⟩ | ⟨-, -, c, x, -, -, he⟩ := exec_shape i s
  · cases he.symm.trans h
    exact absurd (hs.symm.trans ht) nofun
  · exact hfault
  · cases he.symm.trans h
    exact absurd (hs.symm.trans ht) nofun

/-- A step that records a fault where none was has done fault entry for the request it took. -/
theorem step_of_rise {s t : State} {r : Request} {es : List PortEvent} (hin : s.inbox = .request r :: es)
    (h : step s = .next t) (hs : s.record.fault = false) (ht : t.record.fault = true) :
    ∃ f, step s = raiseFault f r { s with inbox := es } := by
  cases hdec : decode r with
  | error e => exact ⟨.illegal, (step_undecodable hin hdec).trans (undecodable_ready r hs)⟩
  | ok i =>
    obtain rfl := encode_of_decode hdec
    rw [step_command hin hdec] at h ⊢
    exact exec_of_rise h hs ht

/-- Settles O11: a step that raises `FAULT` is fault entry, whose state R143 writes out. -/
theorem faultEntryWritesTheRecordAndNothingElse : Obligations.FaultEntryWritesTheRecordAndNothingElse := by
  intro s t r es hin h hs ht
  obtain ⟨f, hf⟩ := step_of_rise hin h hs ht
  cases hf.symm.trans h
  exact ⟨f.code, f.code_mem, rfl⟩

/-! ### Statuses and lengths of responses -/

theorem Status.code_mem (st : Status) : st.code ∈ statusCodes := by
  cases st with
  | fault f => exact List.mem_append_left _ (List.mem_append_right _ f.code_mem)
  | ok | cfgWidth | cfgCapacity | cfgZeroWidth | faulted => decide

/-- OK alone has the code 0 (60_exceptions.md R140). -/
theorem Status.code_eq_zero_iff (st : Status) : st.code = 0x00 ↔ st = .ok := by
  cases st with
  | fault f => cases f <;> decide
  | ok | cfgWidth | cfgCapacity | cfgZeroWidth | faulted => decide

/-- The result answers one response after those of `s`: a status of 60_exceptions.md R140, and as data `n` words when it
is OK, none when it is not. -/
def AnswersWords (n : Nat) (s : State) (res : Result) : Prop :=
  ∃ t resp, res = .next t ∧ t.outbox = s.outbox ++ [resp] ∧ resp.status ∈ statusCodes ∧
    (resp.status ≠ 0x00 → resp.data = []) ∧ (resp.status = 0x00 → resp.data.length = n)

section
variable {n : Nat} {s : State}

theorem respond_answersWords {u : State} {st : Status} {d : List Word} (hu : u.outbox = s.outbox)
    (herr : st ≠ .ok → d = []) (hok : st = .ok → d.length = n) : AnswersWords n s (respond st d u) :=
  ⟨_, ⟨st.code, d⟩, rfl, by rw [← hu]; rfl, st.code_mem, fun h => herr (h ∘ st.code_eq_zero_iff.mpr),
    fun h => hok (st.code_eq_zero_iff.mp h)⟩

theorem respond_ok_answersWords {d : List Word} (hd : d.length = n) : AnswersWords n s (respond .ok d s) :=
  respond_answersWords rfl (absurd rfl) fun _ => hd

theorem respond_ok_setCtx_answersWords (c : CtxNum) (x : Context) :
    AnswersWords 0 s (respond .ok [] (s.setCtx c x)) :=
  respond_answersWords rfl (fun _ => rfl) fun _ => rfl

theorem respond_error_answersWords (st : Status) (hst : st ≠ .ok) : AnswersWords n s (respond st [] s) :=
  respond_answersWords rfl (fun _ => rfl) fun h => absurd h hst

theorem raiseFault_answersWords (f : FaultCode) (r : Request) : AnswersWords n s (raiseFault f r s) :=
  respond_answersWords rfl (fun _ => rfl) nofun

theorem AnswersWords.ite {p : Prop} [Decidable p] {res res' : Result} (h : AnswersWords n s res)
    (h' : AnswersWords n s res') : AnswersWords n s (if p then res else res') := by
  split
  · exact h
  · exact h'

/-- The common checks answer with no data where they do not go on to the command's rule. -/
theorem AnswersWords.commonChecks {rule : Result} (h : AnswersWords n s rule) (r : Request) (wf : Bool) :
    AnswersWords n s (commonChecks r wf s rule) :=
  .ite (respond_error_answersWords .faulted nofun) (.ite h (raiseFault_answersWords .illegal r))

theorem AnswersWords.guarded {rule : Result} (h : AnswersWords n s rule) (i : Instr) :
    AnswersWords n s (guarded i s rule) :=
  h.commonChecks (encode i) (i.wellFormed s.cfg)

theorem undecodable_answersWords (r : Request) : AnswersWords n s (undecodable r s) :=
  (raiseFault_answersWords .illegal r).commonChecks r false

end

/-- Every command answers the number of words that 30_encoding.md R68 gives it: its rule's branches, one by one. -/
theorem exec_answersWords (i : Instr) (s : State) : AnswersWords (okDataLength i s) s (exec i s) := by
  cases i with
  | create c a b =>
    exact .guarded (.ite (respond_error_answersWords .cfgZeroWidth nofun) <|
      .ite (respond_error_answersWords .cfgWidth nofun) <|
      .ite (respond_error_answersWords .cfgCapacity nofun) (respond_ok_setCtx_answersWords c _)) _
  | setitem c a b =>
    exact .guarded (.ite (raiseFault_answersWords .index _) <| .ite (raiseFault_answersWords .value _) <|
      respond_ok_setCtx_answersWords c _) _
  | getitem c a b => exact .guarded (.ite (raiseFault_answersWords .index _) (respond_ok_answersWords rfl)) _
  | getitems c a b => exact .guarded (respond_ok_answersWords (s.ctx c).items_length) _
  | copy d c a b => exact .guarded (respond_ok_setCtx_answersWords d _) _
  | bset c a b | bclr c a b =>
    exact .guarded (.ite (raiseFault_answersWords .bitIndex _) (respond_ok_setCtx_answersWords c _)) _
  | btest c a b => exact .guarded (.ite (raiseFault_answersWords .bitIndex _) (respond_ok_answersWords rfl)) _
  | rdblk c a b => exact .guarded (.ite (raiseFault_answersWords .blockIndex _) (respond_ok_answersWords rfl)) _
  | wrblk c a b =>
    exact .guarded (.ite (raiseFault_answersWords .blockIndex _) (respond_ok_setCtx_answersWords c _)) _
  | info | finfo => exact .guarded (respond_ok_answersWords rfl) _

/-- Whether or not a request decodes, its step answers some number of words. -/
theorem step_answersWords {s : State} {r : Request} {es : List PortEvent} (hin : s.inbox = .request r :: es) :
    ∃ n, AnswersWords n s (step s) := by
  cases hdec : decode r with
  | error e => exact ⟨0, step_undecodable hin hdec ▸ undecodable_answersWords (s := { s with inbox := es }) r⟩
  | ok i => exact ⟨_, step_command hin hdec ▸ exec_answersWords i { s with inbox := es }⟩

/-- Settles O18: a step answers as a command or as an undecodable request does, and a command with its own length. -/
theorem responsesHaveTheStatusesAndLengthsOfTheSpec : Obligations.ResponsesHaveTheStatusesAndLengthsOfTheSpec := by
  constructor
  · intro s r es hin
    obtain ⟨_, t, resp, ht, hout, hst, hdata, -⟩ := step_answersWords hin
    exact ⟨t, resp, ht, hout, hst, hdata⟩
  · intro i s
    obtain ⟨t, resp, ht, hout, -, -, hlen⟩ := exec_answersWords i s
    exact ⟨t, resp, ht, hout, hlen⟩

end Sys2Proof.Machine
end

section
/-! Proofs of the family 70_reset_and_hazards.md: where a run of requests ends at a fault (R177), runs that get through
all the host does (R171), the reset input (R170, R175), and EMPTY contexts before CREATE (R173). -/

namespace Sys2Proof.Machine

/-! ### Where a run of requests ends at a fault -/

/-- The result delivers one response after those of `s`, which says that the run ended at a fault
(70_reset_and_hazards.md R177) exactly when the result leaves `FAULT` set. -/
def ShowsFault (s : State) (res : Result) : Prop :=
  ∃ t resp, res = .next t ∧ t.outbox = s.outbox ++ [resp] ∧ resp.endsAtFault = t.record.fault

section
variable {s : State}

theorem respond_showsFault {u : State} {st : Status} (d : List Word) (hu : u.outbox = s.outbox)
    (hst : Response.endsAtFault ⟨st.code, d⟩ = u.record.fault) : ShowsFault s (respond st d u) :=
  ⟨_, ⟨st.code, d⟩, rfl, by rw [← hu]; rfl, hst⟩

theorem raiseFault_showsFault (f : FaultCode) (r : Request) : ShowsFault s (raiseFault f r s) :=
  respond_showsFault [] rfl (by cases f <;> rfl)

theorem respond_quiet_showsFault (hf : s.record.fault = false) {st : Status} {d : List Word}
    (hst : Response.endsAtFault ⟨st.code, d⟩ = false) : ShowsFault s (respond st d s) :=
  respond_showsFault d rfl (hst.trans hf.symm)

theorem respond_ok_setCtx_showsFault (hf : s.record.fault = false) (c : CtxNum) (x : Context) :
    ShowsFault s (respond .ok [] (s.setCtx c x)) :=
  respond_showsFault [] rfl hf.symm

theorem ShowsFault.ite {p : Prop} [Decidable p] {res res' : Result} (h : ShowsFault s res) (h' : ShowsFault s res') :
    ShowsFault s (if p then res else res') := iteInduction (fun _ => h) fun _ => h'

/-- With no fault recorded the common checks do not refuse: they raise a fault or go on to the command's rule. -/
theorem ShowsFault.guarded {rule : Result} (h : ShowsFault s rule) (hf : s.record.fault = false) (i : Instr) :
    ShowsFault s (guarded i s rule) := by
  cases hi : i.wellFormed s.cfg with
  | false => exact guarded_illFormed rule hf hi ▸ raiseFault_showsFault .illegal (encode i)
  | true => rwa [guarded_ready rule hf hi]

/-- With no fault recorded, a command answers a fault status or `FAULTED` exactly when it raises a fault: its rule's
branches, one by one. -/
theorem exec_showsFault (hf : s.record.fault = false) (i : Instr) : ShowsFault s (exec i s) := by
  have hquiet {st d} := respond_quiet_showsFault hf (st := st) (d := d)
  have hwrite := respond_ok_setCtx_showsFault hf
  cases i with
  | create c a b =>
    exact .guarded (.ite (hquiet rfl) <| .ite (hquiet rfl) <| .ite (hquiet rfl) (hwrite c _)) hf _
  | setitem c a b =>
    exact .guarded (.ite (raiseFault_showsFault .index _) <| .ite (raiseFault_showsFault .value _) (hwrite c _)) hf _
  | getitem c a b => exact .guarded (.ite (raiseFault_showsFault .index _) (hquiet rfl)) hf _
  | btest c a b => exact .guarded (.ite (raiseFault_showsFault .bitIndex _) (hquiet rfl)) hf _
  | rdblk c a b => exact .guarded (.ite (raiseFault_showsFault .blockIndex _) (hquiet rfl)) hf _
  | bset c a b | bclr c a b => exact .guarded (.ite (raiseFault_showsFault .bitIndex _) (hwrite c _)) hf _
  | wrblk c a b => exact .guarded (.ite (raiseFault_showsFault .blockIndex _) (hwrite c _)) hf _
  | copy d c a b => exact .guarded (hwrite d _) hf _
  | getitems | info | finfo => exact .guarded (hquiet rfl) hf _

/-- Whether or not a request decodes, its step shows a fault by the response exactly when it raises one. -/
theorem step_showsFault {r : Request} {es : List PortEvent} (hin : s.inbox = .request r :: es)
    (hf : s.record.fault = false) : ShowsFault s (step s) := by
  cases hdec : decode r with
  | error e =>
    rw [step_undecodable hin hdec, undecodable_ready (s := { s with inbox := es }) r hf]
    exact raiseFault_showsFault (s := { s with inbox := es }) .illegal r
  | ok i =>
    rw [step_command hin hdec]
    exact exec_showsFault (s := { s with inbox := es }) hf i

end

/-- The run up to `s` ended at a fault exactly when one of its responses says so (70_reset_and_hazards.md R177). -/
def State.FaultShown (s : State) : Prop := s.record.fault = true ↔ ¬ s.NoFaultSoFar

theorem noFaultSoFar_iff_of_answer {s t : State} {resp : Response} (hout : t.outbox = s.outbox ++ [resp]) :
    t.NoFaultSoFar ↔ s.NoFaultSoFar ∧ resp.endsAtFault = false := by
  simp [State.NoFaultSoFar, hout, or_imp, forall_and]

/-- A request keeps `FaultShown`. With no fault recorded, its response says whether it raises one; after a fault, the
record stays and so does the response that showed it. -/
theorem State.FaultShown.step_request {s : State} (h : s.FaultShown) {r : Request} {es : List PortEvent}
    (hin : s.inbox = .request r :: es) : ∃ t, step s = .next t ∧ t.inbox = es ∧ t.FaultShown := by
  obtain ⟨t, resp, ht, hes, hout⟩ := everyRequestGetsExactlyOneResponse s r es hin
  refine ⟨t, ht, hes, ?_⟩
  rw [State.FaultShown, noFaultSoFar_iff_of_answer hout]
  cases hf : s.record.fault with
  | false =>
    have hquiet : s.NoFaultSoFar := by
      by_contra hshown
      exact Bool.false_ne_true (hf.symm.trans (h.mpr hshown))
    obtain ⟨t', resp', ht', hout', hshows⟩ := step_showsFault hin hf
    cases ht'.symm.trans ht
    obtain rfl : resp = resp' := by simpa using hout.symm.trans hout'
    rw [and_iff_right hquiet, hshows, Bool.not_eq_false]
  | true =>
    have hrec : t.record = s.record := (step_effect ht).record_eq_of_recorded hf (.inr ⟨r, es, hin⟩)
    have hshown : ¬ s.NoFaultSoFar := h.mp hf
    simp [hrec, hf, hshown]

/-- Settles O17, by induction on the length of the run: it takes requests or holds its state. -/
theorem runsEndAtAFaultWhenAResponseSaysSo : Obligations.RunsEndAtAFaultWhenAResponseSaysSo := by
  intro n s t hreq hf hquiet
  have hshown : s.FaultShown := iff_of_false (hf ▸ Bool.false_ne_true) (not_not.mpr hquiet)
  clear hf hquiet
  induction n generalizing s with
  | zero =>
    rintro ⟨⟩
    exact hshown
  | succ n ih =>
    cases hin : s.inbox with
    | nil =>
      rw [run_succ n (step_idle hin)]
      exact ih s hreq hshown
    | cons e es =>
      rw [hin, List.forall_mem_cons] at hreq
      obtain ⟨⟨r, rfl⟩, hreq⟩ := hreq
      obtain ⟨u, hu, rfl, hshown'⟩ := hshown.step_request hin
      rw [run_succ n hu]
      exact ih u hreq hshown'

/-! ### Runs get through everything the host does -/

/-- One step takes one event, and answers it once if it is a request and not at all if it is a reset. -/
theorem step_takes_event {s : State} {e : PortEvent} {es : List PortEvent} (hin : s.inbox = e :: es) :
    ∃ t rs, step s = .next t ∧ t.inbox = es ∧ t.outbox = s.outbox ++ rs ∧
      rs.length + requestCount es = requestCount (e :: es) := by
  cases e with
  | request r =>
    obtain ⟨t, resp, ht, hes, hout⟩ := everyRequestGetsExactlyOneResponse s r es hin
    exact ⟨t, [resp], ht, hes, hout, Nat.add_comm _ _⟩
  | reset => exact ⟨_, [], step_reset (.inl hin), rfl, (List.append_nil _).symm, Nat.zero_add _⟩
  | resetDuring r => exact ⟨_, [], step_reset (.inr ⟨r, hin⟩), rfl, (List.append_nil _).symm, Nat.zero_add _⟩

/-- Settles O15, by induction on the host's events: a step takes the first, and the run goes on with the others. -/
theorem runsGetThroughEverythingTheHostDoes : Obligations.RunsGetThroughEverythingTheHostDoes := by
  intro s
  induction hin : s.inbox generalizing s with
  | nil => exact ⟨s, [], rfl, hin, (List.append_nil _).symm, rfl⟩
  | cons e es ih =>
    obtain ⟨u, rs, hu, hes, hout, hlen⟩ := step_takes_event hin
    obtain ⟨t, rs', hrun, hdone, hout', hlen'⟩ := ih u hes
    refine ⟨t, rs ++ rs', (run_succ es.length hu).trans hrun, hdone, ?_, ?_⟩
    · rw [hout', hout, List.append_assoc]
    · rw [List.length_append, hlen', hlen]

/-! ### The reset input -/

/-- Settles O26: either kind of reset puts the block in its reset state, where every context number reads EMPTY. -/
theorem resetInputPutsTheBlockInItsResetState : Obligations.ResetInputPutsTheBlockInItsResetState := by
  intro s e es hin he
  have hreset : s.inbox = .reset :: es ∨ ∃ r, s.inbox = .resetDuring r :: es := by
    obtain rfl | ⟨r, rfl⟩ := he
    · exact .inl hin
    · exact .inr ⟨r, hin⟩
  refine ⟨_, step_reset hreset, rfl, rfl, rfl, List.length_replicate, fun c => ?_, rfl, rfl⟩
  rw [State.resetBlock_ctx]
  exact ⟨rfl, rfl, rfl⟩

/-! ### EMPTY contexts -/

/-- Settles O52: an EMPTY context has width and count 0 (10_state.md R24), so every index is out of range; GETITEMS,
INFO, COPY and FINFO check none. -/
theorem emptyContextsFaultUntilCreated : Obligations.EmptyContextsFaultUntilCreated := by
  intro s c d a b hs hready htag hd
  have ⟨hf, hc⟩ := hready
  obtain ⟨-, -, hempty, -⟩ := hs.ctx_inv c
  obtain ⟨hisz, hcnt⟩ := hempty htag
  have hcount : (s.ctx c).cnt.toNat = 0 := by rw [hcnt]; rfl
  have hcap : (s.ctx c).cnt.toNat * (s.ctx c).isz.toNat = 0 := by rw [hcount, Nat.zero_mul]
  have hitems : (s.ctx c).items = [] := by rw [Context.items, hcount]; rfl
  obtain ⟨hset, hget⟩ := (itemCommandsFaultOnIndexThenValue s c a b hready).1 (hcount ▸ Nat.zero_le _)
  obtain ⟨hbset, hbclr, hbtest⟩ := bitIndexesAtOrAboveTheCapacityFault s c a b hready (hcap ▸ Nat.zero_le _)
  obtain ⟨hrd, hwr⟩ := blockIndexesAtOrAboveTheCountFault s c a b hready (hcap ▸ Nat.zero_le _)
  obtain ⟨t, hcopy, hanswer, htag', hisz', hcnt', -⟩ := copyDuplicatesTheSourceContext s d c a b hs ⟨hf, hd⟩ hc
  exact ⟨hset, hget, hbset, hbclr, hbtest, hrd, hwr, hitems ▸ exec_getitems_of_ready hready a b,
    (infoReadsTheConfiguration s c a b hready).2 hs htag,
    ⟨t, hcopy, hanswer, htag'.trans htag, hisz'.trans hisz, hcnt'.trans hcnt⟩, ⟨_, exec_finfo a b s⟩⟩

end Sys2Proof.Machine
end
